-- ==== Sys2Proof/Word.lean ====
section
/-!
DEFINITION. The widths of the machine's values (spec/00_scope.md R3) and the index type of the register file.
All values are unsigned (R8); nothing here is signed.
-/

namespace Sys2Proof

/-- The 8-bit byte: a general register, a memory byte, an immediate `kk`, a timer. -/
abbrev Byte := BitVec 8

/-- The 16-bit word: an opcode, PC, I, a stack slot. -/
abbrev Word := BitVec 16

/-- The 12-bit address field `nnn` of an instruction (30_encoding.md R52). -/
abbrev Addr12 := BitVec 12

/-- One hexadecimal digit of an opcode (00_scope.md R7). -/
abbrev Nibble := BitVec 4

/-- The index of a general register V0..VF (10_state.md R11): sixteen values, none of them reserved. -/
abbrev Reg := Fin 16

/-- VF, the register that 8xy4 also uses as its carry flag (10_state.md R12). -/
abbrev VF : Reg := 15

end Sys2Proof
end

