-- ==== Sys2Proof/Syntax.lean ====
section
/-!
DEFINITION. The instructions, one constructor for each row of spec/opcode_table.json (30_encoding.md R54), the
default row "(unmatched)" among them (R55: decode is a total function of the 16-bit opcode).
-/

namespace Sys2Proof

/-- An instruction with its operand fields (30_encoding.md R51, R52). -/
inductive Instr where
  /-- `00E0` CLS (41_display_cls.md R83). -/
  | cls
  /-- `00EE` RET (42_control_flow.md R90). -/
  | ret
  /-- `0nnn` SYS nnn (R91). -/
  | sys (nnn : Addr12)
  /-- `1nnn` JP nnn (R92). -/
  | jp (nnn : Addr12)
  /-- `2nnn` CALL nnn (R93). -/
  | call (nnn : Addr12)
  /-- `3xkk` SE Vx, kk (43_skips.md R100). -/
  | seImm (x : Reg) (kk : Byte)
  /-- `4xkk` SNE Vx, kk (R101). -/
  | sneImm (x : Reg) (kk : Byte)
  /-- `5xy0` SE Vx, Vy (R102). -/
  | seReg (x y : Reg)
  /-- `6xkk` LD Vx, kk (44_immediate.md R110). -/
  | ldImm (x : Reg) (kk : Byte)
  /-- `7xkk` ADD Vx, kk (R111). -/
  | addImm (x : Reg) (kk : Byte)
  /-- `8xy0` LD Vx, Vy (45_alu.md R120). -/
  | ldReg (x y : Reg)
  /-- `8xy1` OR Vx, Vy (R121). -/
  | orReg (x y : Reg)
  /-- `8xy2` AND Vx, Vy (R122). -/
  | andReg (x y : Reg)
  /-- `8xy3` XOR Vx, Vy (R123). -/
  | xorReg (x y : Reg)
  /-- `8xy4` ADD Vx, Vy (R124). -/
  | addReg (x y : Reg)
  /-- Any opcode that no row matches, `.word op` (46_unmatched.md R130; 30_encoding.md R59). -/
  | unmatched (op : Word)
  deriving DecidableEq, Repr

end Sys2Proof
end

