-- ==== Sys2Proof/WellFormed.lean ====
section
/-!
DEFINITION. When an instruction's fields are values that its row of the opcode table admits (spec/30_encoding.md
R54 to R57).
-/

namespace Sys2Proof

/-- The opcodes that no row matches: `5xy1`..`5xyF`, `8xy5`..`8xyF` and every top nibble from 9 (30_encoding.md
R56, 46_unmatched.md opening paragraph). -/
def unmatchedWord (op : Word) : Bool :=
  let top := op.toNat / 0x1000
  let low := op.toNat % 0x10
  (top == 5 && low != 0) || (top == 8 && 5 ≤ low) || 9 ≤ top

/-- SYS excludes the two words of CLS and RET; the default row holds only the words no other row takes; every
other field is free (R52: no register index is reserved, R53: no immediate value is). -/
def Instr.wf : Instr → Bool
  | .sys nnn => nnn != 0x0E0 && nnn != 0x0EE
  | .unmatched op => unmatchedWord op
  | .cls => true
  | .ret => true
  | .jp _ => true
  | .call _ => true
  | .seImm _ _ => true
  | .sneImm _ _ => true
  | .seReg _ _ => true
  | .ldImm _ _ => true
  | .addImm _ _ => true
  | .ldReg _ _ => true
  | .orReg _ _ => true
  | .andReg _ _ => true
  | .xorReg _ _ => true
  | .addReg _ _ => true

end Sys2Proof
end

