-- ==== Sys2Proof/Decode.lean ====
section
/-!
DEFINITION. Decoding and encoding (spec/30_encoding.md R50 to R56), and the opcode table itself as data (R54).
Bit 0 is the least significant bit of an opcode (00_scope.md R7; log entry 17).
-/

namespace Sys2Proof

/-! ## Fields (R52) -/

/-- `op[15:12]`, the major opcode. -/
def fieldMajor (op : Word) : Nibble := op.extractLsb' 12 4

/-- `op[11:8]`, the index x. -/
def fieldX (op : Word) : Reg := (op.extractLsb' 8 4).toFin

/-- `op[7:4]`, the index y. -/
def fieldY (op : Word) : Reg := (op.extractLsb' 4 4).toFin

/-- `op[3:0]`, the function selector n. -/
def fieldN (op : Word) : Nibble := op.extractLsb' 0 4

/-- `op[7:0]`, the immediate kk. -/
def fieldKK (op : Word) : Byte := op.extractLsb' 0 8

/-- `op[11:0]`, the address nnn. -/
def fieldNNN (op : Word) : Addr12 := op.extractLsb' 0 12

/-! ## Decode (R55) -/

/-- The group of major opcode 8, told apart by its bottom nibble. -/
def decodeGroup8 (op : Word) : Instr :=
  match (fieldN op).toNat with
  | 0 => .ldReg (fieldX op) (fieldY op)
  | 1 => .orReg (fieldX op) (fieldY op)
  | 2 => .andReg (fieldX op) (fieldY op)
  | 3 => .xorReg (fieldX op) (fieldY op)
  | 4 => .addReg (fieldX op) (fieldY op)
  | _ => .unmatched op

/-- Decode, total on the 65536 opcodes (R55, 40_cycle.md R73: it reads only the opcode and cannot fail).
CLS and RET match on all sixteen bits (90_conflicts.md C2, 92_eei_decisions.md D9; log entry 9). -/
def decodeWord (op : Word) : Instr :=
  match (fieldMajor op).toNat with
  | 0 => if op = 0x00E0 then .cls else if op = 0x00EE then .ret else .sys (fieldNNN op)
  | 1 => .jp (fieldNNN op)
  | 2 => .call (fieldNNN op)
  | 3 => .seImm (fieldX op) (fieldKK op)
  | 4 => .sneImm (fieldX op) (fieldKK op)
  | 5 => if fieldN op = 0 then .seReg (fieldX op) (fieldY op) else .unmatched op
  | 6 => .ldImm (fieldX op) (fieldKK op)
  | 7 => .addImm (fieldX op) (fieldKK op)
  | 8 => decodeGroup8 op
  | _ => .unmatched op

/-- The two bytes of an instruction as one word: the byte at the lower address is bits 15:8 (R50,
20_memory.md R36). -/
def wordOfBytes (hi lo : Byte) : Word := hi ++ lo

/-- Bits 15:8 of a word, its byte at the lower address. -/
def highByte (w : Word) : Byte := w.extractLsb' 8 8

/-- Bits 7:0 of a word, its byte at the higher address. -/
def lowByte (w : Word) : Byte := w.extractLsb' 0 8

/-- Why a list of bytes holds no instruction: an instruction is two bytes (R50). An opcode itself is never
rejected (R55). -/
inductive DecodeError where
  /-- There is no byte at all. -/
  | noBytes
  /-- There is one byte where two are needed. -/
  | truncated
  deriving DecidableEq, Repr

/-- Decode the first instruction of a list of bytes, with the bytes that follow it. -/
def decodeBytes : List Byte → Except DecodeError (Instr × List Byte)
  | [] => .error .noBytes
  | [_] => .error .truncated
  | hi :: lo :: rest => .ok (decodeWord (wordOfBytes hi lo), rest)

/-! ## Encode (R51, R54) -/

/-- Format `A`: major opcode, nnn. -/
def formatA (major : Nibble) (nnn : Addr12) : Word := major ++ nnn

/-- Format `I`: major opcode, x, kk. -/
def formatI (major : Nibble) (x : Reg) (kk : Byte) : Word := major ++ BitVec.ofFin (w := 4) x ++ kk

/-- Format `R`: major opcode, x, y, function. -/
def formatR (major : Nibble) (x y : Reg) (n : Nibble) : Word :=
  major ++ BitVec.ofFin (w := 4) x ++ BitVec.ofFin (w := 4) y ++ n

/-- The opcode of an instruction. -/
def encodeWord : Instr → Word
  | .cls => 0x00E0
  | .ret => 0x00EE
  | .sys nnn => formatA 0x0 nnn
  | .jp nnn => formatA 0x1 nnn
  | .call nnn => formatA 0x2 nnn
  | .seImm x kk => formatI 0x3 x kk
  | .sneImm x kk => formatI 0x4 x kk
  | .seReg x y => formatR 0x5 x y 0x0
  | .ldImm x kk => formatI 0x6 x kk
  | .addImm x kk => formatI 0x7 x kk
  | .ldReg x y => formatR 0x8 x y 0x0
  | .orReg x y => formatR 0x8 x y 0x1
  | .andReg x y => formatR 0x8 x y 0x2
  | .xorReg x y => formatR 0x8 x y 0x3
  | .addReg x y => formatR 0x8 x y 0x4
  | .unmatched op => op

/-- The two bytes of an instruction, lower address first (R50). -/
def encode (i : Instr) : List Byte := [highByte (encodeWord i), lowByte (encodeWord i)]

/-! ## The opcode table as data (R54) -/

/-- A row of R54: an opcode selects it when `op & mask == value` and it is none of the excepted words. -/
structure Row where
  mnemonic : String
  mask : Word
  value : Word
  except : List Word
  deriving DecidableEq, Repr

/-- R54's test of one row. -/
def Row.selects (r : Row) (op : Word) : Bool := (op &&& r.mask) == r.value && !r.except.contains op

/-- Rows 1 to 15 of R54 (row 16 is "anything else"). -/
def opcodeTable : List Row :=
  [⟨"CLS", 0xFFFF, 0x00E0, []⟩, ⟨"RET", 0xFFFF, 0x00EE, []⟩, ⟨"SYS", 0xF000, 0x0000, [0x00E0, 0x00EE]⟩,
   ⟨"JP", 0xF000, 0x1000, []⟩, ⟨"CALL", 0xF000, 0x2000, []⟩, ⟨"SE_Vx_kk", 0xF000, 0x3000, []⟩,
   ⟨"SNE_Vx_kk", 0xF000, 0x4000, []⟩, ⟨"SE_Vx_Vy", 0xF00F, 0x5000, []⟩] ++
  [⟨"LD_Vx_kk", 0xF000, 0x6000, []⟩, ⟨"ADD_Vx_kk", 0xF000, 0x7000, []⟩, ⟨"LD_Vx_Vy", 0xF00F, 0x8000, []⟩,
   ⟨"OR_Vx_Vy", 0xF00F, 0x8001, []⟩, ⟨"AND_Vx_Vy", 0xF00F, 0x8002, []⟩, ⟨"XOR_Vx_Vy", 0xF00F, 0x8003, []⟩,
   ⟨"ADD_Vx_Vy", 0xF00F, 0x8004, []⟩]

/-- The mnemonic of an instruction's row, as spec/opcode_table.json spells it. -/
def Instr.mnemonic : Instr → String
  | .cls => "CLS"
  | .ret => "RET"
  | .sys _ => "SYS"
  | .jp _ => "JP"
  | .call _ => "CALL"
  | .seImm _ _ => "SE_Vx_kk"
  | .sneImm _ _ => "SNE_Vx_kk"
  | .seReg _ _ => "SE_Vx_Vy"
  | .ldImm _ _ => "LD_Vx_kk"
  | .addImm _ _ => "ADD_Vx_kk"
  | .ldReg _ _ => "LD_Vx_Vy"
  | .orReg _ _ => "OR_Vx_Vy"
  | .andReg _ _ => "AND_Vx_Vy"
  | .xorReg _ _ => "XOR_Vx_Vy"
  | .addReg _ _ => "ADD_Vx_Vy"
  | .unmatched _ => "(unmatched)"

/-! ## The table's numbering -/

/-- The opcode that a table word stands for: bits from `nbits` up are zero, and an instruction has sixteen. -/
def tableWord (nbits w : Nat) : Word := BitVec.ofNat 16 (w % 2 ^ nbits)

/-- The instruction the decoder reads from the two bytes of a table word, laid out big-endian (R50). -/
def decodeTableWord (nbits w : Nat) : Option Instr :=
  match decodeBytes [highByte (tableWord nbits w), lowByte (tableWord nbits w)] with
  | .ok (i, []) => some i
  | .ok (_, _ :: _) => none
  | .error _ => none

end Sys2Proof
end

