-- ==== Sys2Proof/Config.lean ====
section
/-!
DEFINITION. What is fixed for this hardware and is not part of a run's changing state (spec/00_scope.md R3, R4).
The sizes of R3 (16 registers, 16 stack slots, 4096 bytes, 64 by 32 pixels) stand as numerals in the types and
bounds that use them, as the spec's own pseudocode writes them.
There is no free value: the spec leaves no instruction's result open.
-/

namespace Sys2Proof

/-- The values of the parameter UNKNOWN_OPCODE_POLICY (00_scope.md R4, 46_unmatched.md R130). -/
inductive UnknownOpcodePolicy where
  /-- An unmatched opcode makes the tick return `UnknownOpcode`. -/
  | fault
  /-- An unmatched opcode makes the tick return `Ok`. -/
  | noop
  deriving DecidableEq, Repr

namespace Config

/-- `PC_RESET`, the value of PC at reset and the conventional load address (R3; 70_reset_and_hazards.md R171). -/
def pcReset : Word := 0x200

/-- The value of UNKNOWN_OPCODE_POLICY that the spec takes for this hardware.
DESIGN CHOICE (the spec's own, 92_eei_decisions.md D1; log entry 2): the other value is `noop`. Safe: see the log. -/
def unknownOpcodePolicy : UnknownOpcodePolicy := .fault

end Config

end Sys2Proof
end

