-- ==== Sys2Proof/Machine/State.lean ====
section
/-!
DEFINITION. The machine's state, the reasons of its failures, and the state after reset (spec/10_state.md R10,
70_reset_and_hazards.md R170, 60_exceptions.md R140).
-/

namespace Sys2Proof.Machine

/-- The six typed failures of the Interpreter and its Memory, in the order of R140. None carries a value (R141).
A tick returns its failure beside the state it leaves (`TickResult`, `Execution`) and the machine goes on, because "the
machine has no explicit halt state" (R77): `step` never stops with one of these. They stop only the operation that
raises them. -/
inductive Fault where
  /-- Raised by the memory accessors at an address that names nothing (20_memory.md R31), so by the fetch when
  PC is 0xFFF or more, and by the host's memory port. Safe: the spec's own error, nothing has changed. -/
  | memoryOutOfBounds
  /-- Raised by CALL when SP = 16 (42_control_flow.md R93). Safe: the spec's own error. -/
  | stackOverflow
  /-- Raised by RET when SP = 0 (R90). Safe: the spec's own error. -/
  | stackUnderflow
  /-- Raised by JP 0xFFF alone (R92, R95). Safe: the spec's own error. -/
  | invalidJumpTarget
  /-- Raised by SYS, always (R91). Safe: the spec's own error. -/
  | notImplemented
  /-- Raised by an unmatched opcode under policy `fault` (46_unmatched.md R130). Safe: the spec's recommended
  error; against the artefact as built the model errs where it continues, with the same state (log entry 2). -/
  | unknownOpcode
  deriving DecidableEq, Repr

/-- The one failure of the Display's operations (41_display_cls.md R80, R81). It is not in the Interpreter's
taxonomy: no tick can return it (60_exceptions.md R143). -/
inductive DisplayError where
  /-- Raised by `getPixel` and `setPixel` at a column from 64 or a row from 32; only a host call reaches it.
  Safe: the spec's own error, nothing has changed. -/
  | outOfRange
  deriving DecidableEq, Repr

/-- Why the model would give an instruction no meaning. -/
inductive Refusal where
  /-- Raised by no arm of `exec`: every instruction has its meaning. It would be safe: the model stops. -/
  | notModelled (mnemonic : String)
  deriving DecidableEq, Repr

/-- What a tick returns to the host: `Ok` or exactly one error (40_cycle.md R70). It is the tick's return value and no
part of the state (R75, 10_state.md R22). -/
inductive TickResult where
  | ok
  | error (f : Fault)
  deriving DecidableEq, Repr

/-- Memory as the bytes that differ from their reset contents, addresses strictly rising; its canonical form is
`Memory.wf` and what an unlisted address reads as is `Memory.resetByte` (Machine/Ops.lean). -/
abbrev Memory := List Host.Cell

/-- The framebuffer `fb[y][x]`: 32 rows of 64 pixels, row-major by y (10_state.md R21). -/
abbrev Display := Vector (Vector Bool 64) 32

/-- The ten elements of R10, and one field of the model's own (`policy`). -/
structure State where
  /-- V0..VF (R11). -/
  v : Vector Byte 16
  /-- I, the address register; no instruction of the subset touches it (R13). -/
  i : Word
  /-- PC (R14). Between ticks the address of the next fetch; during execute the post-fetch PC. -/
  pc : Word
  /-- Stack[0]..Stack[15], return addresses (R16). -/
  stack : Vector Word 16
  /-- SP, how many return addresses are held: 0..16 (R17; D13, log entry 12). -/
  sp : Fin 17
  /-- DT, the delay timer (R19): only the host changes it. -/
  dt : Byte
  /-- ST, the sound timer (R19): only the host changes it. -/
  st : Byte
  /-- The 4096 bytes of memory (R20). -/
  mem : Memory
  /-- The framebuffer (R21). -/
  fb : Display
  /-- THE MODEL'S OWN FIELD: the run's parameter UNKNOWN_OPCODE_POLICY (R4, R24; DESIGN CHOICE, log entry 2).
  No tick changes it. -/
  policy : UnknownOpcodePolicy
  deriving DecidableEq, Repr

/-- The state after reset: the "Reset" column of R10. PC is the source's; the zeros of V, I, Stack, SP, DT and ST
are the spec's decision D2 (DESIGN CHOICE, log entry 3), the contents of memory D3 and D5 (log entries 4 and 6),
the clear display D4 (log entry 5). Memory lists nothing: every byte holds its reset contents. -/
def State.reset : State where
  v := Vector.replicate 16 0x00
  i := 0x0000
  pc := Config.pcReset
  stack := Vector.replicate 16 0x0000
  sp := 0
  dt := 0x00
  st := 0x00
  mem := []
  fb := Vector.replicate 32 (Vector.replicate 64 false)
  policy := Config.unknownOpcodePolicy

/-- What a tick, or its execute step, gives: the state it leaves and, beside it, the result it returns (40_cycle.md R70,
R74, R75). The result is stored nowhere (10_state.md R22). -/
structure Execution where
  state : State
  result : TickResult
  deriving DecidableEq, Repr

/-- What `exec` and `step` answer. -/
abbrev Outcome := Host.Outcome State Fault Refusal

end Sys2Proof.Machine
end

