-- ==== Sys2Proof/Machine/Ops.lean ====
section
/-!
DEFINITION. The named operations over memory, registers, the program counter and the stack, and how a tick ends:
with `Ok` or with an error (spec/20_memory.md, 10_state.md, 60_exceptions.md R146).
-/

namespace Sys2Proof.Machine

/-! ## Memory: one byte -/

/-- The font table of R40, digit by digit. Digit 0 is the source's; digits 1 to F are the canonical CHIP-8 font as
R40 prints it (PRESUMED: the spec takes them from general knowledge, D5; log entry 6). -/
def fontTable : List (List Byte) :=
  [[0xF0, 0x90, 0x90, 0x90, 0xF0], [0x20, 0x60, 0x20, 0x20, 0x70],
   [0xF0, 0x10, 0xF0, 0x80, 0xF0], [0xF0, 0x10, 0xF0, 0x10, 0xF0],
   [0x90, 0x90, 0xF0, 0x10, 0x10], [0xF0, 0x80, 0xF0, 0x10, 0xF0],
   [0xF0, 0x80, 0xF0, 0x90, 0xF0], [0xF0, 0x10, 0x20, 0x40, 0x40]] ++
  [[0xF0, 0x90, 0xF0, 0x90, 0xF0], [0xF0, 0x90, 0xF0, 0x10, 0xF0],
   [0xF0, 0x90, 0xF0, 0x90, 0x90], [0xE0, 0x90, 0xE0, 0x90, 0xE0],
   [0xF0, 0x80, 0x80, 0x80, 0xF0], [0xE0, 0x90, 0x90, 0x90, 0xE0],
   [0xF0, 0x80, 0xF0, 0x80, 0xF0], [0xF0, 0x80, 0xF0, 0x80, 0x80]]

/-- Where the sprite of a digit begins (20_memory.md R41). -/
def spriteAddress (digit : Nat) : Nat := digit * 5

/-- Row `row` of the sprite of a digit: 0 where the table has no such row. -/
def fontByte (digit row : Nat) : Byte := (fontTable.getD digit []).getD row 0x00

/-- What a byte that nothing has written reads as: the font table in 0x000..0x04F (R40), 0x00 above it (10_state.md
R10; D3, DESIGN CHOICE, log entry 4). -/
def Memory.resetByte (a : Nat) : Byte := if a < 80 then fontByte (a / 5) (a % 5) else 0x00

/-- The byte `mem[a]`, without any check. -/
def Memory.read : Memory → Nat → Byte
  | [], a => Memory.resetByte a
  | (b, w) :: rest, a => if a = b then w else Memory.read rest a

/-- `mem[a] <- w`, without any check; keeps the canonical form. -/
def Memory.write : Memory → Nat → Byte → Memory
  | [], a, w => if w = Memory.resetByte a then [] else [(a, w)]
  | (b, u) :: rest, a, w =>
    if a < b then (if w = Memory.resetByte a then (b, u) :: rest else (a, w) :: (b, u) :: rest)
    else if a = b then (if w = Memory.resetByte a then rest else (a, w) :: rest)
    else (b, u) :: Memory.write rest a w

/-- The entries lie at `lo` or above and below 4096, rise strictly, and none equals the reset contents. -/
def Memory.wfFrom : Nat → Memory → Bool
  | _, [] => true
  | lo, (a, w) :: rest => lo ≤ a && a < 4096 && w != Memory.resetByte a && Memory.wfFrom (a + 1) rest

/-- The canonical form: equal memories are equal lists. -/
def Memory.wf (m : Memory) : Bool := Memory.wfFrom 0 m

/-! ## Memory: the four accessors (20_memory.md R31 to R36)

An address is an unsigned integer of any size (R30; D16, log entry 13). The check comes before any byte is read or
written, so a failing access does nothing. No alignment rule (R37; D8, log entry 8). -/

/-- `get8` (R32). -/
def Memory.get8 (m : Memory) (addr : Nat) : Except Fault Byte :=
  if addr ≥ 4096 then .error .memoryOutOfBounds else .ok (m.read addr)

/-- `get16`, big-endian (R33). -/
def Memory.get16 (m : Memory) (addr : Nat) : Except Fault Word :=
  if addr ≥ 4095 then .error .memoryOutOfBounds
  else .ok (wordOfBytes (m.read addr) (m.read (addr + 1)))

/-- `set8` (R34); the font region is not protected (D20, log entry 18). -/
def Memory.set8 (m : Memory) (addr : Nat) (val : Byte) : Except Fault Memory :=
  if addr ≥ 4096 then .error .memoryOutOfBounds else .ok (m.write addr val)

/-- `set16`, high byte first (R35). -/
def Memory.set16 (m : Memory) (addr : Nat) (val : Word) : Except Fault Memory :=
  if addr ≥ 4095 then .error .memoryOutOfBounds
  else .ok ((m.write addr (highByte val)).write (addr + 1) (lowByte val))

/-! ## Registers -/

/-- `V[r]` (10_state.md R11). -/
def State.readReg (s : State) (r : Reg) : Byte := s.v[r.val]

/-- `V[r] <- b`; no register is hardwired (R11). -/
def State.writeReg (s : State) (r : Reg) (b : Byte) : State := { s with v := s.v.set r.val b }

/-- `PC <- target`. -/
def State.setPc (s : State) (target : Word) : State := { s with pc := target }

/-- Memory replaced whole (the accessors above give the new contents). -/
def State.withMem (s : State) (m : Memory) : State := { s with mem := m }

/-- The call stack and its pointer replaced. -/
def State.withStack (s : State) (stack : Vector Word 16) (sp : Fin 17) : State :=
  { s with stack := stack, sp := sp }

/-- `PC <- PC + 2`, modulo 65536 (40_cycle.md R72, 43_skips.md R100; D17, log entry 14). -/
def State.advance (s : State) : State := s.setPc (s.pc + 2)

/-! ## The call stack (R16, R17) -/

/-- `Stack[SP] <- w`, `SP <- SP + 1`, or `StackOverflow` with nothing written (42_control_flow.md R93). -/
def State.push (s : State) (w : Word) : Except Fault State :=
  if h : s.sp.val < 16 then
    .ok (s.withStack (s.stack.set s.sp.val w) ⟨s.sp.val + 1, by omega⟩)
  else .error .stackOverflow

/-- `SP <- SP - 1` and the popped `Stack[SP]`, or `StackUnderflow` with nothing written (R90). The slot keeps its
value (10_state.md R16). -/
def State.pop (s : State) : Except Fault (Word × State) :=
  if h : s.sp.val = 0 then .error .stackUnderflow
  else .ok (s.stack[s.sp.val - 1], s.withStack s.stack ⟨s.sp.val - 1, by omega⟩)

/-! ## How a tick ends -/

/-- The instruction has done its writes: the tick returns `Ok` (40_cycle.md R74, R75). -/
def complete (s : State) : Execution := ⟨s, .ok⟩

/-- Taking an error, the one shared operation (60_exceptions.md R146): nothing is saved, no mode changes, control
goes nowhere; the tick returns the error and the machine stands as it was left. There is nothing to return from
(R147): the next tick is an ordinary tick from this state (40_cycle.md R77). -/
def raise (f : Fault) (s : State) : Execution := ⟨s, .error f⟩

/-- The state an execution leaves, as `exec` and `step` answer it: a next state whatever the result, because the
machine has no halt (R77). The result itself goes to the host beside it, by `tick` (R75; log entry 1). -/
def Execution.answer (e : Execution) : Outcome := .next e.state

end Sys2Proof.Machine
end

