-- ==== Sys2Proof/Machine/Operands.lean ====
section
/-!
DEFINITION. The operand forms: a register by its index, an immediate byte, an address (spec/30_encoding.md R53).
There is no other form: no memory operand, no indirect operand, no PC-relative operand.
-/

namespace Sys2Proof.Machine

/-- A register operand: `x` or `y` is used directly as the index (R53). -/
def regOperand (r : Reg) (s : State) : Byte := s.readReg r

/-- An immediate operand: `kk` as an unsigned byte, neither extended, scaled nor shifted (R53). -/
def immOperand (kk : Byte) : Byte := kk

/-- An address operand: `zext_16(nnn)`, always in 0x000..0xFFF (R53). -/
def addrOperand (nnn : Addr12) : Word := nnn.zeroExtend 16

end Sys2Proof.Machine
end

