-- ==== Sys2Proof/Machine/Flags.lean ====
section
/-!
DEFINITION. The machine's one flag computation: the carry of the 9-bit sum (spec/45_alu.md R124, R125; 10_state.md
R12). There is no flags register; the flag is the byte in VF.
-/

namespace Sys2Proof.Machine

/-- `zext_9(a) + zext_9(b)`: 0..510, so nine bits hold it. -/
def wideSum (a b : Byte) : BitVec 9 := a.zeroExtend 9 + b.zeroExtend 9

/-- `sum mod 256`. -/
def sumByte (a b : Byte) : Byte := (wideSum a b).truncate 8

/-- `sum > 255`. -/
def carryOut (a b : Byte) : Bool := 255 < (wideSum a b).toNat

/-- The flag as VF holds it: exactly 0x00 or 0x01 (R124). -/
def flagByte (c : Bool) : Byte := if c then 0x01 else 0x00

/-- `V[15] <- flag`. -/
def State.writeFlag (s : State) (c : Bool) : State := s.writeReg VF (flagByte c)

end Sys2Proof.Machine
end

