-- ==== Sys2Proof/Machine/Alu.lean ====
section
/-!
DEFINITION. The register-register instructions 8xy0 to 8xy4 (spec/45_alu.md R120 to R124). None can fail.
-/

namespace Sys2Proof.Machine

/-- `V[x] <- op(V[x], V[y])`, no flag: both operands are read before the write. -/
def aluOp (op : Byte → Byte → Byte) (x y : Reg) (s : State) : Execution :=
  complete (s.writeReg x (op (regOperand x s) (regOperand y s)))

/-- LD Vx, Vy (R120). -/
def performLdReg (x y : Reg) (s : State) : Execution := aluOp (fun _ b => b) x y s

/-- LD Vx, Vy (R120): the state left. -/
def execLdReg (x y : Reg) (s : State) : Outcome := (performLdReg x y s).answer

/-- OR Vx, Vy (R121): VF is not touched unless x = 15. -/
def performOrReg (x y : Reg) (s : State) : Execution := aluOp (· ||| ·) x y s

/-- OR Vx, Vy (R121): the state left. -/
def execOrReg (x y : Reg) (s : State) : Outcome := (performOrReg x y s).answer

/-- AND Vx, Vy (R122). -/
def performAndReg (x y : Reg) (s : State) : Execution := aluOp (· &&& ·) x y s

/-- AND Vx, Vy (R122): the state left. -/
def execAndReg (x y : Reg) (s : State) : Outcome := (performAndReg x y s).answer

/-- XOR Vx, Vy (R123). -/
def performXorReg (x y : Reg) (s : State) : Execution := aluOp (· ^^^ ·) x y s

/-- XOR Vx, Vy (R123): the state left. -/
def execXorReg (x y : Reg) (s : State) : Outcome := (performXorReg x y s).answer

/-- ADD Vx, Vy (R124): the sum is written first and the flag last, so with x = 15 VF ends as the carry (the spec's
reading, D7; DESIGN CHOICE, log entry 7). -/
def performAddReg (x y : Reg) (s : State) : Execution :=
  let a := regOperand x s
  let b := regOperand y s
  complete ((s.writeReg x (sumByte a b)).writeFlag (carryOut a b))

/-- ADD Vx, Vy (R124): the state left. -/
def execAddReg (x y : Reg) (s : State) : Outcome := (performAddReg x y s).answer

end Sys2Proof.Machine
end

