-- ==== Sys2Proof/Machine/ControlFlow.lean ====
section
/-!
DEFINITION. RET, SYS, JP and CALL (spec/42_control_flow.md R90 to R95). The state given is the one after the PC
advance: PC is the post-fetch PC (40_cycle.md R72). Here and in the files of the
other families `perform<Name>` is an instruction's meaning, the state left with the result returned, and `exec<Name>` is
its arm of `exec`, the state left.
-/

namespace Sys2Proof.Machine

/-- RET (R90): the popped value is not checked in any way. -/
def performRet (s : State) : Execution :=
  match s.pop with
  | .error f => raise f s
  | .ok (target, s') => complete (s'.setPc target)

/-- RET (R90): the state left. -/
def execRet (s : State) : Outcome := (performRet s).answer

/-- SYS (R91): it always fails, writes nothing, and ignores `nnn`. -/
def performSys (_nnn : Addr12) (s : State) : Execution := raise .notImplemented s

/-- SYS (R91): the state left. -/
def execSys (nnn : Addr12) (s : State) : Outcome := (performSys nnn s).answer

/-- JP (R92): 0xFFF is the one target it rejects; an odd target is legal. -/
def performJp (nnn : Addr12) (s : State) : Execution :=
  if nnn.toNat > 0xFFE then raise .invalidJumpTarget s else complete (s.setPc (addrOperand nnn))

/-- JP (R92): the state left. -/
def execJp (nnn : Addr12) (s : State) : Outcome := (performJp nnn s).answer

/-- CALL (R93): pushes the post-fetch PC; the target is not checked (R95). -/
def performCall (nnn : Addr12) (s : State) : Execution :=
  match s.push s.pc with
  | .error f => raise f s
  | .ok s' => complete (s'.setPc (addrOperand nnn))

/-- CALL (R93): the state left. -/
def execCall (nnn : Addr12) (s : State) : Outcome := (performCall nnn s).answer

end Sys2Proof.Machine
end

