-- ==== Sys2Proof/Machine/Display.lean ====
section
/-!
DEFINITION. The Display's three operations and CLS (spec/41_display_cls.md R80 to R83). Coordinates are unsigned
integers of any size (D14, log entry 13).
-/

namespace Sys2Proof.Machine

/-- `get(x, y)` (R81). -/
def Display.getPixel (d : Display) (x y : Nat) : Except DisplayError Bool :=
  if h : x < 64 ∧ y < 32 then .ok ((d[y]'h.2)[x]'h.1) else .error .outOfRange

/-- `set(x, y, value)` (R80): one pixel, or nothing. Coordinates do not wrap. -/
def Display.setPixel (d : Display) (x y : Nat) (value : Bool) : Except DisplayError Display :=
  if h : x < 64 ∧ y < 32 then .ok (d.set y ((d[y]'h.2).set x value h.1) h.2) else .error .outOfRange

/-- `clear()` (R82): the contents after it are those of a fresh grid, every pixel false, as one change. -/
def Display.clear (_ : Display) : Display := Vector.replicate 32 (Vector.replicate 64 false)

/-- The framebuffer's contents replaced, everything else as it was. -/
def State.withDisplay (s : State) (d : Display) : State := { s with fb := d }

/-- The framebuffer cleared, everything else as it was. -/
def State.clearDisplay (s : State) : State := s.withDisplay s.fb.clear

/-- CLS (R83). It cannot fail. -/
def performCls (s : State) : Execution := complete s.clearDisplay

/-- CLS (R83): the state left. -/
def execCls (s : State) : Outcome := (performCls s).answer

end Sys2Proof.Machine
end

