-- ==== Sys2Proof/Machine/Immediate.lean ====
section
/-!
DEFINITION. LD Vx,kk and ADD Vx,kk (spec/44_immediate.md R110, R111). Neither can fail.
-/

namespace Sys2Proof.Machine

/-- LD Vx, kk (R110). -/
def performLdImm (x : Reg) (kk : Byte) (s : State) : Execution := complete (s.writeReg x (immOperand kk))

/-- LD Vx, kk (R110): the state left. -/
def execLdImm (x : Reg) (kk : Byte) (s : State) : Outcome := (performLdImm x kk s).answer

/-- ADD Vx, kk (R111): the carry is discarded. With x = 15 the destination is VF itself (the spec's reading, D22;
DESIGN CHOICE, log entry 15). -/
def performAddImm (x : Reg) (kk : Byte) (s : State) : Execution :=
  complete (s.writeReg x (sumByte (regOperand x s) (immOperand kk)))

/-- ADD Vx, kk (R111): the state left. -/
def execAddImm (x : Reg) (kk : Byte) (s : State) : Outcome := (performAddImm x kk s).answer

end Sys2Proof.Machine
end

