-- ==== Sys2Proof/Machine/Skips.lean ====
section
/-!
DEFINITION. The three conditional skips (spec/43_skips.md R100 to R102). None can fail.
-/

namespace Sys2Proof.Machine

/-- `if c then PC <- PC + 2`: the further 2 beside the fetch's own (40_cycle.md R72). The skipped word is not
looked at. -/
def skipIf (c : Bool) (s : State) : Execution := complete (if c then s.advance else s)

/-- SE Vx, kk (R100). -/
def performSeImm (x : Reg) (kk : Byte) (s : State) : Execution := skipIf (regOperand x s == immOperand kk) s

/-- SE Vx, kk (R100): the state left. -/
def execSeImm (x : Reg) (kk : Byte) (s : State) : Outcome := (performSeImm x kk s).answer

/-- SNE Vx, kk (R101). -/
def performSneImm (x : Reg) (kk : Byte) (s : State) : Execution := skipIf (regOperand x s != immOperand kk) s

/-- SNE Vx, kk (R101): the state left. -/
def execSneImm (x : Reg) (kk : Byte) (s : State) : Outcome := (performSneImm x kk s).answer

/-- SE Vx, Vy (R102). -/
def performSeReg (x y : Reg) (s : State) : Execution := skipIf (regOperand x s == regOperand y s) s

/-- SE Vx, Vy (R102): the state left. -/
def execSeReg (x y : Reg) (s : State) : Outcome := (performSeReg x y s).answer

end Sys2Proof.Machine
end

