-- ==== Sys2Proof/Machine/Unmatched.lean ====
section
/-!
DEFINITION. An opcode that no row of the table matches (spec/46_unmatched.md R130, R131).
-/

namespace Sys2Proof.Machine

/-- An unmatched opcode writes nothing; the policy decides what the tick returns (R130; D1, log entry 2). No field
of the opcode is used. -/
def performUnmatched (_op : Word) (s : State) : Execution :=
  match s.policy with
  | .fault => raise .unknownOpcode s
  | .noop => complete s

/-- An unmatched opcode: the state left. -/
def execUnmatched (op : Word) (s : State) : Outcome := (performUnmatched op s).answer

end Sys2Proof.Machine
end

