-- ==== Sys2Proof/Machine/Dispatch.lean ====
section
/-!
DEFINITION. Step 4 of the tick (spec/40_cycle.md R70, R74): one arm for each instruction, one call of its meaning.
The state is the one after the fetch and the PC advance. Beside the state answered here the execute step returns a
result: `perform` (Machine/Tick.lean).
-/

namespace Sys2Proof.Machine

/-- Execute a decoded instruction (R74). -/
def exec (i : Instr) (s : State) : Host.Outcome State Fault Refusal :=
  match i with
  -- the Display
  | .cls => Sys2Proof.Machine.execCls s
  -- control flow
  | .ret => Sys2Proof.Machine.execRet s
  | .sys nnn => Sys2Proof.Machine.execSys nnn s
  | .jp nnn => Sys2Proof.Machine.execJp nnn s
  | .call nnn => Sys2Proof.Machine.execCall nnn s
  -- skips
  | .seImm x kk => Sys2Proof.Machine.execSeImm x kk s
  | .sneImm x kk => Sys2Proof.Machine.execSneImm x kk s
  | .seReg x y => Sys2Proof.Machine.execSeReg x y s
  -- immediate operations
  | .ldImm x kk => Sys2Proof.Machine.execLdImm x kk s
  | .addImm x kk => Sys2Proof.Machine.execAddImm x kk s
  -- register-register operations
  | .ldReg x y => Sys2Proof.Machine.execLdReg x y s
  | .orReg x y => Sys2Proof.Machine.execOrReg x y s
  | .andReg x y => Sys2Proof.Machine.execAndReg x y s
  | .xorReg x y => Sys2Proof.Machine.execXorReg x y s
  | .addReg x y => Sys2Proof.Machine.execAddReg x y s
  -- every other word
  | .unmatched op => Sys2Proof.Machine.execUnmatched op s

end Sys2Proof.Machine
end

