-- ==== Sys2Proof/Machine/Fetch.lean ====
section
/-!
DEFINITION. Step 1 of the tick, the fetch (spec/40_cycle.md R71), and where a program's next word lies.
-/

namespace Sys2Proof.Machine

/-- `op <- get16(PC)`: succeeds exactly when PC is at most 0xFFE, at odd addresses too (R71, 20_memory.md R37). -/
def fetch (s : State) : Except Fault Word := s.mem.get16 s.pc.toNat

/-- A PC from which a word can be fetched: the machine's own where that is possible, else the load address 0x200
(used only to place a word for the next step; log entry 19). -/
def fetchablePc (s : State) : Word := if s.pc.toNat < 4095 then s.pc else Config.pcReset

/-- The state with `op` stored, big-endian, at that PC. -/
def State.placeWord (s : State) (op : Word) : State :=
  let p := fetchablePc s
  (s.setPc p).withMem ((s.mem.write p.toNat (highByte op)).write (p.toNat + 1) (lowByte op))

end Sys2Proof.Machine
end

