-- ==== Sys2Proof/Machine/Tick.lean ====
section
/-!
DEFINITION. The tick with the result it returns (spec/40_cycle.md R70). `exec` (Machine/Dispatch.lean) and `step`
(Machine/Step.lean) answer the states of `perform` and `tick` and leave the result out, because Host.Outcome has
no place for it beside a next state (log entry 1).
-/

namespace Sys2Proof.Machine

/-- Step 4, execute (R74): the instruction's writes and `Ok`, or no write and the error. -/
def perform (i : Instr) (s : State) : Execution :=
  match i with
  | .cls => performCls s
  | .ret => performRet s
  | .sys nnn => performSys nnn s
  | .jp nnn => performJp nnn s
  | .call nnn => performCall nnn s
  | .seImm x kk => performSeImm x kk s
  | .sneImm x kk => performSneImm x kk s
  | .seReg x y => performSeReg x y s
  | .ldImm x kk => performLdImm x kk s
  | .addImm x kk => performAddImm x kk s
  | .ldReg x y => performLdReg x y s
  | .orReg x y => performOrReg x y s
  | .andReg x y => performAndReg x y s
  | .xorReg x y => performXorReg x y s
  | .addReg x y => performAddReg x y s
  | .unmatched op => performUnmatched op s

/-- One tick (R70). A failed fetch changes nothing (R71); otherwise PC is advanced by 2 before decode, whatever the
opcode is (R72), and the instruction is executed (R73, R74). The result goes to the host and is not recorded (R75). -/
def tick (s : State) : Execution :=
  match fetch s with
  | .error f => raise f s
  | .ok op => perform (decodeWord op) s.advance

end Sys2Proof.Machine
end

