-- ==== Sys2Proof/Machine/Step.lean ====
section
/-!
DEFINITION. The tick as the host's interface takes it (spec/40_cycle.md R70): fetch, advance, decode, execute. The
result it returns beside the state is in `tick` (Machine/Tick.lean).
-/

namespace Sys2Proof.Machine

/-- The state one tick leaves (R70). A failed fetch changes nothing (R71); otherwise PC is advanced by 2 before decode,
whatever the opcode is (R72), and the instruction is executed (R73, R74). -/
def step (s : State) : Host.Outcome State Fault Refusal :=
  match fetch s with
  | .error f => (raise f s).answer
  | .ok op => exec (decodeWord op) s.advance

/-- `s` with the table word's instruction where the next step fetches it, big-endian (30_encoding.md R50). PC stays
unless no word can be fetched from it (log entry 19). -/
def State.withFetchWord (s : State) (nbits w : Nat) : State := s.placeWord (tableWord nbits w)

end Sys2Proof.Machine
end

