-- ==== Sys2Proof/Machine/HostPort.lean ====
section
/-!
DEFINITION. What the host can do to the machine between ticks: the six interfaces of spec/00_scope.md R6, each move
atomic and never overlapping another (60_exceptions.md R156; D10, D12, log entry 10).
-/

namespace Sys2Proof.Machine

/-- The numeric status of a tick's result, 0 for `Ok` and 1 to 6 in R140's order (the spec's own numbers, D6; log
entry 20). Nothing depends on them. -/
def TickResult.code : TickResult → Nat
  | .ok => 0
  | .error .memoryOutOfBounds => 1
  | .error .stackOverflow => 2
  | .error .stackUnderflow => 3
  | .error .invalidJumpTarget => 4
  | .error .notImplemented => 5
  | .error .unknownOpcode => 6

/-- One move of the host. -/
inductive HostMove where
  /-- Put every element of state at its reset value (70_reset_and_hazards.md R170). -/
  | reset
  /-- One instruction cycle (40_cycle.md R70). -/
  | tick
  /-- The memory port (20_memory.md R32 to R35). -/
  | get8 (addr : Nat)
  | get16 (addr : Nat)
  | set8 (addr : Nat) (val : Byte)
  | set16 (addr : Nat) (val : Word)
  /-- The display port (41_display_cls.md R80 to R82). -/
  | getPixel (x y : Nat)
  | setPixel (x y : Nat) (value : Bool)
  | clear
  /-- The timer port: either timer may be read, and written with any value (60_exceptions.md R152). -/
  | readDelay
  | readSound
  | writeDelay (b : Byte)
  | writeSound (b : Byte)
  /-- `HostTimerTick` (R152). -/
  | timerTick
  /-- The observation interface: the registers, with no side effect (R155; the reply's form is log entry 24). Memory is
  read by `get8` and `get16`, pixels by `getPixel`. -/
  | observe
  deriving DecidableEq, Repr

/-- The registers among the elements of R10: what the observation interface reads (60_exceptions.md R155). No error of
an earlier tick is among them (10_state.md R22). That one reply holds them all is the model's choice: the spec gives no
format (N14; DESIGN CHOICE, log entry 24). -/
structure Registers where
  v : Vector Byte 16
  i : Word
  pc : Word
  stack : Vector Word 16
  sp : Fin 17
  dt : Byte
  st : Byte
  deriving DecidableEq, Repr

/-- What a move gives back to the host. -/
inductive HostReply where
  | done
  /-- A tick's result, `Ok` or one error (R75). -/
  | result (r : TickResult)
  | byte (b : Byte)
  | word (w : Word)
  | pixel (p : Bool)
  /-- The registers, as they are. -/
  | observed (r : Registers)
  /-- The memory port refused the address; nothing has changed (60_exceptions.md R143). -/
  | memoryFault (f : Fault)
  /-- The display port refused the coordinates; nothing has changed (R143). -/
  | displayFault (e : DisplayError)
  deriving DecidableEq, Repr

/-- Reset by the host: every element of R10 at its reset value; the run's parameter is not state and stays
(log entry 21). -/
def hostReset (s : State) : State := { State.reset with policy := s.policy }

/-- A timer counted down by one, stopping at zero (R152; PRESUMED by the spec from general knowledge, K3, log entry
11). -/
def countDown (b : Byte) : Byte := if b = 0 then 0 else b - 1

/-- DT and ST replaced: only the timer port does this (R152). -/
def State.withTimers (s : State) (dt st : Byte) : State := { s with dt := dt, st := st }

/-- `HostTimerTick` (R152). -/
def hostTimerTick (s : State) : State := s.withTimers (countDown s.dt) (countDown s.st)

/-- A tick as the host sees it: the state left, and the result returned, which only this reply holds (40_cycle.md
R75). -/
def hostTick (s : State) : State × HostReply :=
  let e := tick s
  (e.state, .result e.result)

/-- The registers of a state, read with no side effect (R155). -/
def State.registers (s : State) : Registers where
  v := s.v
  i := s.i
  pc := s.pc
  stack := s.stack
  sp := s.sp
  dt := s.dt
  st := s.st

/-- The reply to a read of the memory port. -/
def memoryReply {α : Type} (reply : α → HostReply) : Except Fault α → HostReply
  | .ok a => reply a
  | .error f => .memoryFault f

/-- A write through the memory port: refused as a whole, or done. -/
def memoryWrite (s : State) : Except Fault Memory → State × HostReply
  | .ok m => (s.withMem m, .done)
  | .error f => (s, .memoryFault f)

/-- One move of the host: the state after it and the reply. -/
def hostMove (m : HostMove) (s : State) : State × HostReply :=
  match m with
  | .reset => (hostReset s, .done)
  | .tick => hostTick s
  | .get8 addr => (s, memoryReply .byte (s.mem.get8 addr))
  | .get16 addr => (s, memoryReply .word (s.mem.get16 addr))
  | .set8 addr val => memoryWrite s (s.mem.set8 addr val)
  | .set16 addr val => memoryWrite s (s.mem.set16 addr val)
  | .getPixel x y =>
    match s.fb.getPixel x y with
    | .ok p => (s, .pixel p)
    | .error e => (s, .displayFault e)
  | .setPixel x y value =>
    match s.fb.setPixel x y value with
    | .ok d => (s.withDisplay d, .done)
    | .error e => (s, .displayFault e)
  | .clear => (s.clearDisplay, .done)
  | .readDelay => (s, .byte s.dt)
  | .readSound => (s, .byte s.st)
  | .writeDelay b => (s.withTimers b s.st, .done)
  | .writeSound b => (s.withTimers s.dt b, .done)
  | .timerTick => (hostTimerTick s, .done)
  | .observe => (s, .observed s.registers)

/-- A run: a finite list of moves, its replies in order and the final state (60_exceptions.md R148). -/
def hostRun : List HostMove → State → State × List HostReply
  | [], s => (s, [])
  | m :: rest, s =>
    let now := hostMove m s
    let later := hostRun rest now.1
    (later.1, now.2 :: later.2)

/-- `n` ticks in a row: the final state and the result of each. -/
def ticks (n : Nat) (s : State) : State × List HostReply := hostRun (List.replicate n .tick) s

/-- The loader's moves for a PROGRAM_IMAGE, one `set8` a byte (00_scope.md R4; 70_reset_and_hazards.md R173,
R174). -/
def loadMoves (image : List (Nat × Byte)) : List HostMove := image.map fun (a, b) => .set8 a b

end Sys2Proof.Machine
end

