-- ==== Sys2Proof/Safety.lean ====
section
/-!
DEFINITION. What counts as a legal run of the host, and the invariant that the spec's own reachability arguments
give (spec/10_state.md R15, R17, R18; 60_exceptions.md R156).
-/

namespace Sys2Proof.Machine

/-- A move that writes memory. -/
def HostMove.writesMemory : HostMove → Bool
  | .set8 _ _ => true
  | .set16 _ _ => true
  | .reset => false
  | .tick => false
  | .get8 _ => false
  | .get16 _ => false
  | .getPixel _ _ => false
  | .setPixel _ _ _ => false
  | .clear => false
  | .readDelay => false
  | .readSound => false
  | .writeDelay _ => false
  | .writeSound _ => false
  | .timerTick => false
  | .observe => false

/-- The moves of a run after its reset: memory is written only before the first tick, and a further reset begins
again (R156, 70_reset_and_hazards.md R176). `ticked` says whether a tick has been issued since the reset. -/
def legalAfterReset : Bool → List HostMove → Bool
  | _, [] => true
  | _, .reset :: rest => legalAfterReset false rest
  | _, .tick :: rest => legalAfterReset true rest
  | ticked, m :: rest => !(ticked && m.writesMemory) && legalAfterReset ticked rest

/-- A legal run: it begins with a reset (R156: the host must "reset before the first run"). -/
def legalRun : List HostMove → Bool
  | .reset :: rest => legalAfterReset false rest
  | _ => false

/-- The live stack entries hold what a CALL pushes: a post-fetch PC, 0x0002..0x1000 (R18). -/
def State.stackSound (s : State) : Prop :=
  ∀ k : Fin 16, k.val < s.sp.val → 0x0002 ≤ s.stack[k.val].toNat ∧ s.stack[k.val].toNat ≤ 0x1000

/-- The invariant of R15 and R18 with the canonical form of memory. It holds at reset, and every tick and every
host move keep it. -/
structure State.Inv (s : State) : Prop where
  /-- Memory is in its canonical form. -/
  memWf : s.mem.wf = true
  /-- PC is in 0..0x1002 (R15). -/
  pcBound : s.pc.toNat ≤ 0x1002
  /-- The live stack entries are return addresses (R18). -/
  stack : s.stackSound

end Sys2Proof.Machine
end

