-- ==== Sys2Proof/Certificates/Slice0/Obligations.lean ====
section
/-!
DEFINITION. The statements about the model, from the numbered rules of spec/. In a statement about `exec`, the state
`s` is the one after the fetch and the PC advance, so `s.pc` is the post-fetch PC (40_cycle.md R72); in a statement
about `step` it is the state before the tick. The free choices of the model that a statement rests on are named in its
docstring with their log entry. `exec` and `step` answer the state left; the result returned beside it, which no state
holds (R75), is that of `perform` and `tick`: a clause about it formalises the rule's "return Ok" or "raise".
-/

namespace Sys2Proof.Machine.Claims

/-! ## Frames: what stays, said through the model's reads -/

/-- Every byte of memory reads as before. -/
def SameMemory (s t : State) : Prop := ∀ a, t.mem.read a = s.mem.read a

/-- Every general register but the named ones reads as before. -/
def SameRegsBut (dests : List Reg) (s t : State) : Prop := ∀ r, r ∉ dests → t.readReg r = s.readReg r

/-- SP and every stack slot are as before. -/
def SameStack (s t : State) : Prop := t.sp = s.sp ∧ ∀ (k : Nat) (_ : k < 16), t.stack[k] = s.stack[k]

/-- Every pixel reads as before. -/
def SamePixels (s t : State) : Prop := ∀ x y, t.fb.getPixel x y = s.fb.getPixel x y

/-- What no instruction touches: I, DT, ST, memory (R78), and the run's parameter. -/
def SameUntouched (s t : State) : Prop :=
  t.i = s.i ∧ t.dt = s.dt ∧ t.st = s.st ∧ SameMemory s t ∧ t.policy = s.policy

/-- The frame of an instruction that writes the named registers and perhaps PC: no other register, no stack slot, no
pixel, nothing of the untouched state. -/
def WritesOnlyRegs (dests : List Reg) (s t : State) : Prop :=
  SameRegsBut dests s t ∧ SameStack s t ∧ SamePixels s t ∧ SameUntouched s t

/-- The frame of an instruction that works on the stack and PC: no register, no pixel, nothing of the untouched
state. -/
def WritesOnlyStack (s t : State) : Prop :=
  SameRegsBut [] s t ∧ SamePixels s t ∧ SameUntouched s t

/-- Executing `i` returns an error and leaves the state as it was (R146). -/
def FailsWith (i : Instr) (f : Fault) (s : State) : Prop :=
  exec i s = .next s ∧ (perform i s).result = .error f

/-! ## The table of R76 -/

/-- PC after a tick that fetched `i` at `P` and returned `Ok`, read from the state before the tick (R76). -/
def pcAfterOk (i : Instr) (s : State) : Word :=
  match i with
  | .jp nnn => nnn.zeroExtend 16
  | .call nnn => nnn.zeroExtend 16
  | .ret => s.stack.toList.getD (s.sp.val - 1) 0
  | .seImm x kk => if s.readReg x = kk then s.pc + 4 else s.pc + 2
  | .sneImm x kk => if s.readReg x = kk then s.pc + 2 else s.pc + 4
  | .seReg x y => if s.readReg x = s.readReg y then s.pc + 4 else s.pc + 2
  | _ => s.pc + 2

/-- The word fetched lies in the group whose instructions write a general register: 6xkk, 7xkk, 8xy0..8xy4. -/
def writesRegister (op : Word) : Prop :=
  op.toNat / 0x1000 = 6 ∨ op.toNat / 0x1000 = 7 ∨ (op.toNat / 0x1000 = 8 ∧ op.toNat % 0x10 ≤ 4)

end Sys2Proof.Machine.Claims

open Sys2Proof Sys2Proof.Machine Sys2Proof.Machine.Claims

/-! ## Encoding (30_encoding.md) -/

/-- Decoding the bytes of a well-formed instruction gives it back with the bytes that follow, every operand at every
value (R50 to R55). -/
def Obligations.DecodeOfEncodeIsTheInstruction : Prop :=
  ∀ (i : Instr) (rest : List Byte), i.wf = true → decodeBytes (encode i ++ rest) = .ok (i, rest)

/-- Every one of the 65536 opcodes decodes to a well-formed instruction that encodes to that opcode (R55: decode is
exhaustive and every bit pattern maps to exactly one operation). -/
def Obligations.EncodeOfDecodeIsTheOpcode : Prop :=
  ∀ op : Word, (decodeWord op).wf = true ∧ encodeWord (decodeWord op) = op

/-- The decoder follows the table of R54: the rows of the table that an opcode selects are exactly the one row of the
instruction it decodes to, or none where it decodes to the default row; so no two rows overlap (R55). -/
def Obligations.DecoderFollowsTheOpcodeTable : Prop :=
  ∀ op : Word, (opcodeTable.filter (·.selects op)).map Row.mnemonic =
    if unmatchedWord op = true then [] else [(decodeWord op).mnemonic]

/-- R56, by top nibble: of the 4096 opcodes of top nibble 5 the decoder leaves 3840 unmatched, of top nibble 8 it
leaves 2816, of 9 to F all, of every other none. -/
def Obligations.CensusOfUnmatchedOpcodes : Prop :=
  ((List.range 4096).filter fun n =>
    decodeWord (BitVec.ofNat 16 (0x5000 + n)) = .unmatched (BitVec.ofNat 16 (0x5000 + n))).length = 3840 ∧
  ((List.range 4096).filter fun n =>
    decodeWord (BitVec.ofNat 16 (0x8000 + n)) = .unmatched (BitVec.ofNat 16 (0x8000 + n))).length = 2816 ∧
  ∀ op : Word, op.toNat / 0x1000 ≠ 5 → op.toNat / 0x1000 ≠ 8 →
    (decodeWord op = .unmatched op ↔ 9 ≤ op.toNat / 0x1000)

/-- Words written out from the patterns of R54, one of each format and family. -/
def Obligations.WrittenOutWordsDecode : Prop :=
  decodeBytes [0x00, 0xE0] = .ok (.cls, []) ∧ decodeBytes [0x00, 0xEE] = .ok (.ret, []) ∧
  decodeBytes [0x01, 0xE0] = .ok (.sys 0x1E0, []) ∧ decodeBytes [0x1A, 0xBC] = .ok (.jp 0xABC, []) ∧
  decodeBytes [0x3A, 0x07] = .ok (.seImm 10 0x07, []) ∧ decodeBytes [0x6A, 0x2A] = .ok (.ldImm 10 0x2A, []) ∧
  decodeBytes [0x51, 0x20] = .ok (.seReg 1 2, []) ∧ decodeBytes [0x80, 0x14] = .ok (.addReg 0 1, []) ∧
  decodeBytes [0x81, 0x25] = .ok (.unmatched 0x8125, [])

/-! ## The instructions: encoding, effect, frame, completion -/

/-- R83, CLS. -/
def Obligations.ClsClearsEveryPixel : Prop :=
  (∀ op, decodeWord op = .cls ↔ op = 0x00E0) ∧
  ∀ s, ∃ t, exec .cls s = .next t ∧ (perform .cls s).result = .ok ∧ t.pc = s.pc ∧
    (∀ x y, x < 64 → y < 32 → t.fb.getPixel x y = .ok false) ∧
    SameRegsBut [] s t ∧ SameStack s t ∧ SameUntouched s t

/-- R90, RET. -/
def Obligations.RetPopsTheReturnAddress : Prop :=
  (∀ op, decodeWord op = .ret ↔ op = 0x00EE) ∧
  (∀ s : State, s.sp.val = 0 → FailsWith .ret .stackUnderflow s) ∧
  ∀ (s : State) (k : Nat) (_ : k < 16), s.sp.val = k + 1 →
    ∃ t, exec .ret s = .next t ∧ (perform .ret s).result = .ok ∧ t.sp.val = k ∧ t.pc = s.stack[k] ∧
      (∀ (j : Nat) (_ : j < 16), t.stack[j] = s.stack[j]) ∧ WritesOnlyStack s t

/-- R91, SYS. -/
def Obligations.SysAlwaysFailsNotImplemented : Prop :=
  (∀ op nnn, decodeWord op = .sys nnn ↔ op.toNat = nnn.toNat ∧ op ≠ 0x00E0 ∧ op ≠ 0x00EE) ∧
  ∀ nnn s, exec (.sys nnn) s = .next s ∧ (perform (.sys nnn) s).result = .error .notImplemented

/-- R92, JP. -/
def Obligations.JpSetsPcOrRejectsTheTopAddress : Prop :=
  (∀ op nnn, decodeWord op = .jp nnn ↔ op.toNat = 0x1000 + nnn.toNat) ∧
  (∀ (nnn : Addr12) s, nnn.toNat ≤ 0xFFE →
    ∃ t, exec (.jp nnn) s = .next t ∧ (perform (.jp nnn) s).result = .ok ∧ t.pc.toNat = nnn.toNat ∧
      WritesOnlyRegs [] s t) ∧
  ∀ (nnn : Addr12) s, nnn.toNat = 0xFFF → FailsWith (.jp nnn) .invalidJumpTarget s

/-- R93, CALL. -/
def Obligations.CallPushesThePostFetchPc : Prop :=
  (∀ op nnn, decodeWord op = .call nnn ↔ op.toNat = 0x2000 + nnn.toNat) ∧
  (∀ nnn (s : State), s.sp.val = 16 → FailsWith (.call nnn) .stackOverflow s) ∧
  ∀ nnn (s : State) (k : Nat) (_ : k < 16), s.sp.val = k →
    ∃ t, exec (.call nnn) s = .next t ∧ (perform (.call nnn) s).result = .ok ∧
      t.stack[k] = s.pc ∧ t.sp.val = k + 1 ∧ t.pc.toNat = nnn.toNat ∧
      (∀ (j : Nat) (_ : j < 16), j ≠ k → t.stack[j] = s.stack[j]) ∧ WritesOnlyStack s t

/-- R100, SE Vx,kk. -/
def Obligations.SeImmSkipsWhenEqual : Prop :=
  (∀ op x kk, decodeWord op = .seImm x kk ↔ op.toNat = 0x3000 + 0x100 * x.val + kk.toNat) ∧
  ∀ x kk s, ∃ t, exec (.seImm x kk) s = .next t ∧ (perform (.seImm x kk) s).result = .ok ∧
    (s.readReg x = kk → t.pc = s.pc + 2) ∧ (s.readReg x ≠ kk → t.pc = s.pc) ∧ WritesOnlyRegs [] s t

/-- R101, SNE Vx,kk; and of 3xkk and 4xkk exactly one skips. -/
def Obligations.SneImmSkipsWhenDifferent : Prop :=
  (∀ op x kk, decodeWord op = .sneImm x kk ↔ op.toNat = 0x4000 + 0x100 * x.val + kk.toNat) ∧
  (∀ x kk s, ∃ t, exec (.sneImm x kk) s = .next t ∧ (perform (.sneImm x kk) s).result = .ok ∧
    (s.readReg x ≠ kk → t.pc = s.pc + 2) ∧ (s.readReg x = kk → t.pc = s.pc) ∧ WritesOnlyRegs [] s t) ∧
  ∀ x kk s t u, exec (.seImm x kk) s = .next t → exec (.sneImm x kk) s = .next u →
    (t.pc = s.pc + 2 ∧ u.pc = s.pc) ∨ (t.pc = s.pc ∧ u.pc = s.pc + 2)

/-- R102, SE Vx,Vy; with x = y it always skips. -/
def Obligations.SeRegSkipsWhenEqual : Prop :=
  (∀ op x y, decodeWord op = .seReg x y ↔ op.toNat = 0x5000 + 0x100 * x.val + 0x10 * y.val) ∧
  (∀ x y s, ∃ t, exec (.seReg x y) s = .next t ∧ (perform (.seReg x y) s).result = .ok ∧
    (s.readReg x = s.readReg y → t.pc = s.pc + 2) ∧ (s.readReg x ≠ s.readReg y → t.pc = s.pc) ∧
    WritesOnlyRegs [] s t) ∧
  ∀ x s t, exec (.seReg x x) s = .next t → t.pc = s.pc + 2

/-- R110, LD Vx,kk. -/
def Obligations.LdImmLoadsTheByte : Prop :=
  (∀ op x kk, decodeWord op = .ldImm x kk ↔ op.toNat = 0x6000 + 0x100 * x.val + kk.toNat) ∧
  ∀ x kk s, ∃ t, exec (.ldImm x kk) s = .next t ∧ (perform (.ldImm x kk) s).result = .ok ∧
    t.readReg x = kk ∧ t.pc = s.pc ∧ WritesOnlyRegs [x] s t

/-- R111, ADD Vx,kk. With x = 15 the destination is VF (the spec's own reading, 92_eei_decisions.md D22; log entry
15); with x ≠ 15 VF stays, which the frame says. -/
def Obligations.AddImmAddsModulo256WithoutCarry : Prop :=
  (∀ op x kk, decodeWord op = .addImm x kk ↔ op.toNat = 0x7000 + 0x100 * x.val + kk.toNat) ∧
  ∀ x kk s, ∃ t, exec (.addImm x kk) s = .next t ∧ (perform (.addImm x kk) s).result = .ok ∧
    (t.readReg x).toNat = ((s.readReg x).toNat + kk.toNat) % 256 ∧ t.pc = s.pc ∧ WritesOnlyRegs [x] s t

/-- R120, LD Vx,Vy. -/
def Obligations.LdRegCopiesTheRegister : Prop :=
  (∀ op x y, decodeWord op = .ldReg x y ↔ op.toNat = 0x8000 + 0x100 * x.val + 0x10 * y.val) ∧
  ∀ x y s, ∃ t, exec (.ldReg x y) s = .next t ∧ (perform (.ldReg x y) s).result = .ok ∧
    t.readReg x = s.readReg y ∧ t.readReg y = s.readReg y ∧ t.pc = s.pc ∧ WritesOnlyRegs [x] s t

/-- R121, R122, R123: OR, AND, XOR act on each of the eight bits, and write no register but V[x]: not VF unless x is
15. -/
def Obligations.BitwiseOpsActOnEachBit : Prop :=
  (∀ op x y, (decodeWord op = .orReg x y ↔ op.toNat = 0x8001 + 0x100 * x.val + 0x10 * y.val) ∧
    (decodeWord op = .andReg x y ↔ op.toNat = 0x8002 + 0x100 * x.val + 0x10 * y.val) ∧
    (decodeWord op = .xorReg x y ↔ op.toNat = 0x8003 + 0x100 * x.val + 0x10 * y.val)) ∧
  ∀ x y s,
    (∃ t, exec (.orReg x y) s = .next t ∧ (perform (.orReg x y) s).result = .ok ∧
      t.pc = s.pc ∧ WritesOnlyRegs [x] s t ∧
      ∀ b < 8, (t.readReg x).getLsbD b = ((s.readReg x).getLsbD b || (s.readReg y).getLsbD b)) ∧
    (∃ t, exec (.andReg x y) s = .next t ∧ (perform (.andReg x y) s).result = .ok ∧
      t.pc = s.pc ∧ WritesOnlyRegs [x] s t ∧
      ∀ b < 8, (t.readReg x).getLsbD b = ((s.readReg x).getLsbD b && (s.readReg y).getLsbD b)) ∧
    (∃ t, exec (.xorReg x y) s = .next t ∧ (perform (.xorReg x y) s).result = .ok ∧
      t.pc = s.pc ∧ WritesOnlyRegs [x] s t ∧
      ∀ b < 8, (t.readReg x).getLsbD b = Bool.xor ((s.readReg x).getLsbD b) ((s.readReg y).getLsbD b))

/-- R124, ADD Vx,Vy. The flag is written last, so with x = 15 VF ends as the carry (the spec's own reading,
92_eei_decisions.md D7; log entry 7). -/
def Obligations.AddRegWritesSumThenCarry : Prop :=
  (∀ op x y, decodeWord op = .addReg x y ↔ op.toNat = 0x8004 + 0x100 * x.val + 0x10 * y.val) ∧
  ∀ x y s, ∃ t, exec (.addReg x y) s = .next t ∧ (perform (.addReg x y) s).result = .ok ∧
    (x ≠ VF → (t.readReg x).toNat = ((s.readReg x).toNat + (s.readReg y).toNat) % 256) ∧
    (t.readReg VF).toNat = (if (s.readReg x).toNat + (s.readReg y).toNat > 255 then 1 else 0) ∧
    t.pc = s.pc ∧ WritesOnlyRegs [x, VF] s t

/-- R130, an unmatched opcode, under either value of UNKNOWN_OPCODE_POLICY (92_eei_decisions.md D1; log entry 2). -/
def Obligations.UnmatchedOpcodeChangesNothing : Prop :=
  (∀ op op', decodeWord op = .unmatched op' ↔ op' = op ∧ unmatchedWord op = true) ∧
  (∀ op (s : State), s.policy = .fault →
    exec (.unmatched op) s = .next s ∧ (perform (.unmatched op) s).result = .error .unknownOpcode) ∧
  ∀ op (s : State), s.policy = .noop →
    exec (.unmatched op) s = .next s ∧ (perform (.unmatched op) s).result = .ok

/-! ## The tick (40_cycle.md) -/

/-- R70 to R73: where the two bytes at PC decode to an instruction, the tick is that instruction executed on the state
with PC advanced by 2, the state left and the result returned. -/
def Obligations.StepRunsTheDecodedInstruction : Prop :=
  ∀ (s : State) (i : Instr), s.pc.toNat ≤ 0xFFE →
    decodeBytes [s.mem.read s.pc.toNat, s.mem.read (s.pc.toNat + 1)] = .ok (i, []) →
    step s = exec i { s with pc := s.pc + 2 } ∧ tick s = perform i { s with pc := s.pc + 2 }

/-- R70, R75: the execute step and the tick give a state and, beside it, a result; `exec` and `step` answer that state,
whatever the result (that they leave the result out is the model's choice, log entry 1). -/
def Obligations.ExecAndStepAnswerTheStateLeft : Prop :=
  (∀ (i : Instr) (s : State), exec i s = .next (perform i s).state) ∧
  ∀ s : State, step s = .next (tick s).state

/-- R71, the fetch. -/
def Obligations.FetchReadsTheWordOrChangesNothing : Prop :=
  (∀ s : State, 4095 ≤ s.pc.toNat → fetch s = .error .memoryOutOfBounds ∧
    step s = .next s ∧ (tick s).result = .error .memoryOutOfBounds) ∧
  ∀ s : State, s.pc.toNat ≤ 0xFFE → ∃ op, fetch s = .ok op ∧
    op.toNat = (s.mem.read s.pc.toNat).toNat * 256 + (s.mem.read (s.pc.toNat + 1)).toNat

/-- R75, R70: every tick answers a state and returns a result to the host, and one that returns an error has changed
nothing, or only PC, by 2: nothing in the state records the error. -/
def Obligations.ErrorLeavesAtMostThePcAdvance : Prop :=
  ∀ (s : State), ∃ t, step s = .next t ∧ hostTick s = (t, .result (tick s).result) ∧
    ((tick s).result = .error .memoryOutOfBounds → t = s) ∧
    ∀ f, f ≠ .memoryOutOfBounds → (tick s).result = .error f → t = { s with pc := s.pc + 2 }

/-- R76, the table of PC after one tick. -/
def Obligations.PcAfterOneTickByOutcome : Prop :=
  (∀ s : State, 0xFFF ≤ s.pc.toNat → ∃ t, step s = .next t ∧ t.pc = s.pc) ∧
  ∀ (s : State) (op : Word), fetch s = .ok op → ∃ t, step s = .next t ∧
    ((tick s).result = .ok → t.pc = pcAfterOk (decodeWord op) s) ∧
    ∀ f, (tick s).result = .error f → t.pc = s.pc + 2

/-- R78: what a tick never touches, and which words alone may touch the rest. -/
def Obligations.TickTouchesOnlyWhatItsOpcodeNames : Prop :=
  ∀ s : State, ∃ t, step s = .next t ∧ SameUntouched s t ∧
    ((∀ op, fetch s = .ok op → op ≠ 0x00E0) → SamePixels s t) ∧
    ((∀ op, fetch s = .ok op → op ≠ 0x00EE ∧ op.toNat / 0x1000 ≠ 2) → SameStack s t) ∧
    ((∀ op, fetch s = .ok op → ¬ writesRegister op) → SameRegsBut [] s t)

/-- R140, R74: each error comes exactly when its row says. -/
def Obligations.EachErrorComesExactlyWhenItsRowSays : Prop :=
  ∀ s : State,
    ((tick s).result = .error .memoryOutOfBounds ↔ 0xFFF ≤ s.pc.toNat) ∧
    ((tick s).result = .error .stackOverflow ↔ ∃ op, fetch s = .ok op ∧ op.toNat / 0x1000 = 2 ∧ s.sp.val = 16) ∧
    ((tick s).result = .error .stackUnderflow ↔ fetch s = .ok 0x00EE ∧ s.sp.val = 0) ∧
    ((tick s).result = .error .invalidJumpTarget ↔ fetch s = .ok 0x1FFF) ∧
    ((tick s).result = .error .notImplemented ↔
      ∃ op, fetch s = .ok op ∧ op.toNat / 0x1000 = 0 ∧ op ≠ 0x00E0 ∧ op ≠ 0x00EE) ∧
    ((tick s).result = .error .unknownOpcode ↔
      ∃ op, fetch s = .ok op ∧ unmatchedWord op = true ∧ s.policy = .fault)

/-- R77: after a failed fetch every further tick fails the same way and changes nothing, however many there are. -/
def Obligations.FailedFetchIsAFixedPoint : Prop :=
  ∀ (n : Nat) (s : State), 0xFFF ≤ s.pc.toNat →
    ticks (n + 1) s = (s,
      List.replicate (n + 1) (.result (.error .memoryOutOfBounds)))

/-- R95: a transfer to an address from which no fetch can succeed returns `Ok`, and the next tick reports it with PC
left at that address: CALL 0xFFF, and RET of any such value. -/
def Obligations.BadTargetIsReportedOneTickLater : Prop :=
  (∀ s : State, fetch s = .ok 0x2FFF → s.sp.val < 16 →
    ∃ t, step s = .next t ∧ (tick s).result = .ok ∧ t.pc = 0x0FFF ∧
      step t = .next t ∧ (tick t).result = .error .memoryOutOfBounds) ∧
  ∀ (s : State) (k : Nat) (_ : k < 16), fetch s = .ok 0x00EE → s.sp.val = k + 1 → 0xFFF ≤ s.stack[k].toNat →
    ∃ t, step s = .next t ∧ (tick s).result = .ok ∧ t.pc = s.stack[k] ∧
      step t = .next t ∧ (tick t).result = .error .memoryOutOfBounds

/-- R60, R92: a jump to its own address succeeds and changes nothing. -/
def Obligations.JumpToSelfChangesNothing : Prop :=
  ∀ (s : State) (op : Word), fetch s = .ok op → op.toNat = 0x1000 + s.pc.toNat →
    step s = .next s ∧ (tick s).result = .ok

/-- R94: a RET after a CALL, with the stack as the CALL left it whatever else has changed, goes to the CALL's
post-fetch PC and gives the old SP. -/
def Obligations.RetUndoesCall : Prop :=
  ∀ (nnn : Addr12) (s t u : State), s.sp.val < 16 → exec (.call nnn) s = .next t →
    u.sp = t.sp → u.stack = t.stack →
    ∃ w, exec .ret u = .next w ∧ (perform .ret u).result = .ok ∧ w.pc = s.pc ∧ w.sp = s.sp ∧
      ∀ (j : Nat) (_ : j < 16), j ≠ s.sp.val → w.stack[j] = s.stack[j]

/-! ## Whole-machine rules -/

/-- R130: the policy decides nothing but what a tick returns. -/
def Obligations.PolicyDecidesOnlyTheResult : Prop :=
  ∀ (s : State) (p : UnknownOpcodePolicy), ∃ t, step s = .next t ∧
    step { s with policy := p } = .next { t with policy := p } ∧
    ((∀ op, fetch s = .ok op → unmatchedWord op = false) →
      (tick { s with policy := p }).result = (tick s).result)

/-- R13, R19, R27: no tick reads I, DT or ST: changing them before the tick changes nothing after it but themselves, nor
what the tick returns. -/
def Obligations.UnreadStateDoesNotInfluenceATick : Prop :=
  ∀ (s : State) (i' : Word) (d e : Byte), ∃ t, step s = .next t ∧
    step { s with i := i', dt := d, st := e } = .next { t with i := i', dt := d, st := e } ∧
    (tick { s with i := i', dt := d, st := e }).result = (tick s).result

/-- R27: no tick reads a pixel: two states that differ only in the framebuffer leave states that differ only there,
and a CLS leaves equal ones; what the tick returns is the same. -/
def Obligations.PixelsDoNotInfluenceATick : Prop :=
  ∀ (s : State) (d : Display), ∃ t, step s = .next t ∧
    ∃ d', step { s with fb := d } = .next { t with fb := d' } ∧
      (fetch s = .ok 0x00E0 → d' = t.fb) ∧ (fetch s ≠ .ok 0x00E0 → d' = d) ∧
      (tick { s with fb := d }).result = (tick s).result

/-- Over any number of ticks memory (70_reset_and_hazards.md R176, 20_memory.md R46) and I, DT and ST (40_cycle.md R78;
10_state.md R13, R19) are constant, and there is one reply for each tick (40_cycle.md R70). That the policy stays is the
model's choice (log entry 2: the parameter stands in State). -/
def Obligations.MemoryIsConstantOverTicks : Prop :=
  ∀ (n : Nat) (s : State), SameUntouched s (ticks n s).1 ∧ (ticks n s).2.length = n

/-- R15, R18 and the canonical form of memory: every tick keeps the invariant. -/
def Obligations.TickKeepsTheInvariant : Prop :=
  ∀ s t : State, s.Inv → step s = .next t → t.Inv

/-- The invariant holds at reset. -/
def Obligations.ResetMeetsTheInvariant : Prop := State.reset.Inv

/-- R15, R18: every run of host moves keeps the invariant; it gives one reply for each move, and the reply to a tick is
a result (R70, R148). -/
def Obligations.HostRunKeepsTheInvariant : Prop :=
  ∀ (moves : List HostMove) (s : State), s.Inv →
    (hostRun moves s).1.Inv ∧ (hostRun moves s).2.length = moves.length ∧
    ∀ k : Nat, moves[k]? = some .tick → ∃ r, (hostRun moves s).2[k]? = some (.result r)

/-! ## Reset (10_state.md R10, 70_reset_and_hazards.md) -/

/-- R171: PC is 0x200 and the stack is empty, so a RET placed there fails. -/
def Obligations.ResetStartsAt200WithAnEmptyStack : Prop :=
  State.reset.pc = 0x200 ∧ State.reset.sp = 0 ∧ fetch State.reset = State.reset.mem.get16 0x200 ∧
  ∃ t, step (State.reset.withFetchWord 16 0x00EE) = .next t ∧
    (tick (State.reset.withFetchWord 16 0x00EE)).result = .error .stackUnderflow ∧ t.pc = 0x202 ∧ t.sp = 0

/-- R10: the reset values that the spec decided (D2, D3, D4; log entries 3, 4, 5) and that of the model's own field (log
entry 2). -/
def Obligations.ResetValuesOfTheRest : Prop :=
  (∀ r, State.reset.readReg r = 0x00) ∧ State.reset.i = 0x0000 ∧ State.reset.dt = 0x00 ∧ State.reset.st = 0x00 ∧
  (∀ (k : Nat) (_ : k < 16), State.reset.stack[k] = 0x0000) ∧
  (∀ a, 0x050 ≤ a → State.reset.mem.read a = 0x00) ∧
  (∀ x y, x < 64 → y < 32 → State.reset.fb.getPixel x y = .ok false) ∧
  State.reset.policy = .fault

/-- R40, R41: the sprite of digit d lies at 5 d, digit 0 as the source prints it (the others rest on log entry 6). -/
def Obligations.FontTableAtReset : Prop :=
  State.reset.mem.get8 0x000 = .ok 0xF0 ∧
  (List.range 5).map (fun r => State.reset.mem.read (spriteAddress 0 + r)) = [0xF0, 0x90, 0x90, 0x90, 0xF0] ∧
  (∀ d r, d < 16 → r < 5 → State.reset.mem.read (spriteAddress d + r) = fontByte d r) ∧
  (List.range 5).map (fun r => State.reset.mem.read (spriteAddress 15 + r)) = [0xF0, 0x80, 0xF0, 0x80, 0x80]

/-! ## Memory (20_memory.md) -/

/-- R31: the bounds of the four accessors. -/
def Obligations.EveryAccessChecksItsBounds : Prop :=
  ∀ (m : Memory) (a : Nat) (b : Byte) (w : Word),
    (m.get8 a = .error .memoryOutOfBounds ↔ 4096 ≤ a) ∧ (m.set8 a b = .error .memoryOutOfBounds ↔ 4096 ≤ a) ∧
    (m.get16 a = .error .memoryOutOfBounds ↔ 4095 ≤ a) ∧ (m.set16 a w = .error .memoryOutOfBounds ↔ 4095 ≤ a)

/-- R34: set8 writes exactly one byte anywhere in the space, the font region included, which get8 then reads (R32); an
address outside the space is refused. -/
def Obligations.Set8WritesExactlyOneByte : Prop :=
  ∀ (m : Memory) (a : Nat) (b : Byte), m.wf = true →
    (4096 ≤ a → m.set8 a b = .error .memoryOutOfBounds) ∧
    (a < 4096 → ∃ m', m.set8 a b = .ok m' ∧ m'.get8 a = .ok b ∧
      ∀ c, c ≠ a → m'.read c = m.read c ∧ m'.get8 c = m.get8 c)

/-- R35: set16 writes the high byte at the address and the low byte after it and nothing else; get16 gives the word
back; at 4095 it writes neither byte. -/
def Obligations.Set16WritesBigEndianAndGet16ReadsItBack : Prop :=
  ∀ (m : Memory) (a : Nat) (w : Word), m.wf = true →
    (4095 ≤ a → m.set16 a w = .error .memoryOutOfBounds) ∧
    (a < 4095 → ∃ m', m.set16 a w = .ok m' ∧ m'.get16 a = .ok w ∧
      (m'.read a).toNat = w.toNat / 256 ∧ (m'.read (a + 1)).toNat = w.toNat % 256 ∧
      ∀ c, c ≠ a → c ≠ a + 1 → m'.read c = m.read c)

/-- R36: two single-byte writes are seen by a 16-bit read, the lower address as the most significant byte. -/
def Obligations.TwoByteWritesAreReadBigEndian : Prop :=
  ∀ (m : Memory) (a : Nat) (hi lo : Byte), m.wf = true → a < 4095 →
    ∃ m' m'' w, m.set8 a hi = .ok m' ∧ m'.set8 (a + 1) lo = .ok m'' ∧ m''.get16 a = .ok w ∧
      w.toNat = hi.toNat * 256 + lo.toNat

/-- Memory's canonical form is one: two memories that read the same everywhere are equal data. -/
def Obligations.CanonicalMemoriesThatReadTheSameAreEqual : Prop :=
  ∀ m m' : Memory, m.wf = true → m'.wf = true → (∀ a, m.read a = m'.read a) → m = m'

/-! ## The Display and the host (41_display_cls.md, 60_exceptions.md) -/

/-- R80, R81: a pixel set reads back, every other pixel stays, and coordinates do not wrap (unsigned coordinates are
the spec's decision D14; log entry 13). -/
def Obligations.SetPixelWritesExactlyOnePixel : Prop :=
  ∀ (d : Display) (x y : Nat) (p : Bool),
    (64 ≤ x ∨ 32 ≤ y → d.setPixel x y p = .error .outOfRange ∧ d.getPixel x y = .error .outOfRange) ∧
    (x < 64 → y < 32 → ∃ d', d.setPixel x y p = .ok d' ∧ d'.getPixel x y = .ok p ∧
      ∀ x' y', (x', y') ≠ (x, y) → d'.getPixel x' y' = d.getPixel x' y')

/-- R82: the host's clear makes every pixel false and changes nothing else. -/
def Obligations.HostClearMakesEveryPixelFalse : Prop :=
  ∀ s : State, ∃ t, hostMove .clear s = (t, .done) ∧
    (∀ x y, x < 64 → y < 32 → t.fb.getPixel x y = .ok false) ∧ t = { s with fb := t.fb }

/-- R27, R143, R155, R156 (D12; log entry 10): a move of the host other than a tick or a reset leaves V, I, PC, Stack
and SP alone; the read moves, and a move that is refused, leave the whole state alone. -/
def Obligations.HostMovesLeaveTheCoreRegistersAlone : Prop :=
  ∀ (m : HostMove) (s : State), m ≠ .tick → m ≠ .reset →
    ((hostMove m s).1.v = s.v ∧ (hostMove m s).1.i = s.i ∧ (hostMove m s).1.pc = s.pc ∧
      (hostMove m s).1.stack = s.stack ∧ (hostMove m s).1.sp = s.sp ∧ (hostMove m s).1.policy = s.policy) ∧
    ((hostMove m s).2 ≠ .done → (hostMove m s).1 = s)

/-- R152: the host's timer tick counts each timer down by one and stops at zero (the spec's general knowledge, K3; log
entry 11), and changes nothing else. -/
def Obligations.HostTimerTickStopsAtZero : Prop :=
  ∀ s : State, ∃ t, hostMove .timerTick s = (t, .done) ∧
    t.dt.toNat = s.dt.toNat - 1 ∧ t.st.toNat = s.st.toNat - 1 ∧ t = { s with dt := t.dt, st := t.st }

/-- R155: the observation interface gives every register as it is, with no side effect (that one reply holds them all
is the model's choice, log entry 24). -/
def Obligations.ObservationReadsEveryRegister : Prop :=
  ∀ s : State, ∃ o : Registers, hostMove .observe s = (s, .observed o) ∧
    (∀ r : Reg, o.v[r.val] = s.readReg r) ∧ o.i = s.i ∧ o.pc = s.pc ∧
    (∀ (k : Nat) (_ : k < 16), o.stack[k] = s.stack[k]) ∧ o.sp = s.sp ∧ o.dt = s.dt ∧ o.st = s.st

/-- R44: a word the host writes at PC is the word the next fetch returns. -/
def Obligations.FetchSeesTheHostsWrite : Prop :=
  ∀ (s : State) (w : Word), s.mem.wf = true → s.pc.toNat ≤ 0xFFE →
    (hostMove (.set16 s.pc.toNat w) s).2 = .done ∧ fetch (hostMove (.set16 s.pc.toNat w) s).1 = .ok w

/-- R170: the host's reset gives the reset state from any state, the run's parameter kept (log entry 21). -/
def Obligations.HostResetGivesTheResetState : Prop :=
  ∀ s : State, (hostMove .reset s).1 = { State.reset with policy := s.policy } ∧
    (s.policy = Config.unknownOpcodePolicy → (hostMove .reset s).1 = State.reset)
end

