-- ==== Sys2Proof/Laws/Decode.lean ====
section
/-!
SUPPORT. The fields of an opcode and the words of each format as numbers (spec/30_encoding.md R51, R52), so that
facts about encodings become linear arithmetic.
-/

namespace Sys2Proof.Laws

/-! ## Fields -/

theorem fieldMajor_toNat (op : Word) : (fieldMajor op).toNat = op.toNat / 0x1000 := by
  have := op.isLt
  simp only [fieldMajor, BitVec.extractLsb'_toNat, Nat.shiftRight_eq_div_pow]
  omega

theorem fieldX_val (op : Word) : (fieldX op).val = op.toNat / 0x100 % 0x10 := by
  simp [fieldX, Nat.shiftRight_eq_div_pow]

theorem fieldY_val (op : Word) : (fieldY op).val = op.toNat / 0x10 % 0x10 := by
  simp [fieldY, Nat.shiftRight_eq_div_pow]

theorem fieldN_toNat (op : Word) : (fieldN op).toNat = op.toNat % 0x10 := by
  simp [fieldN, BitVec.extractLsb'_toNat]

theorem fieldKK_toNat (op : Word) : (fieldKK op).toNat = op.toNat % 0x100 := by
  simp [fieldKK, BitVec.extractLsb'_toNat]

theorem fieldNNN_toNat (op : Word) : (fieldNNN op).toNat = op.toNat % 0x1000 := by
  simp [fieldNNN, BitVec.extractLsb'_toNat]

theorem fieldN_eq_zero_iff (op : Word) : fieldN op = 0 ↔ op.toNat % 0x10 = 0 := by
  rw [← fieldN_toNat]
  exact ⟨fun h => by simp [h], fun h => BitVec.eq_of_toNat_eq (by simpa using h)⟩

/-! ## The two masks of the table (R54) -/

/-- The mask of formats A and I keeps the top nibble. -/
theorem maskMajor_toNat (op : Word) : (op &&& 0xF000#16).toNat = op.toNat / 0x1000 * 0x1000 := by
  have := op.isLt
  have h : op &&& 0xF000#16 = (op >>> 12) <<< 12 := by
    ext i hi
    simp only [BitVec.getElem_and, BitVec.getElem_shiftLeft]
    interval_cases i <;> simp
  rw [h]
  simp only [BitVec.toNat_shiftLeft, BitVec.toNat_ushiftRight, Nat.shiftRight_eq_div_pow, Nat.shiftLeft_eq]
  omega

/-- The mask of format R keeps the top and the bottom nibble. -/
theorem maskFunction_toNat (op : Word) :
    (op &&& 0xF00F#16).toNat = op.toNat / 0x1000 * 0x1000 + op.toNat % 0x10 := by
  have := op.isLt
  have h : op &&& 0xF00F#16 = (op &&& 0xF000#16) + (op &&& 0xF#16) := by
    rw [BitVec.add_eq_or_of_and_eq_zero]
    · ext i hi
      simp only [BitVec.getElem_and, BitVec.getElem_or]
      interval_cases i <;> simp
    · ext i hi
      simp only [BitVec.getElem_and]
      interval_cases i <;> simp
  have hl : (op &&& 0xF#16).toNat = op.toNat % 0x10 := Nat.and_two_pow_sub_one_eq_mod op.toNat 4
  rw [h, BitVec.toNat_add, maskMajor_toNat, hl]
  omega

/-! ## Formats -/

/-- Format `A` as a number. -/
theorem formatA_toNat (m : Nibble) (nnn : Addr12) : (formatA m nnn).toNat = m.toNat * 0x1000 + nnn.toNat := by
  have h : nnn.toNat < 4096 := nnn.isLt
  simp only [formatA, BitVec.toNat_append]
  rw [← Nat.shiftLeft_add_eq_or_of_lt h]
  simp only [Nat.shiftLeft_eq]

/-- Format `I` as a number. -/
theorem formatI_toNat (m : Nibble) (x : Reg) (kk : Byte) :
    (formatI m x kk).toNat = m.toNat * 0x1000 + x.val * 0x100 + kk.toNat := by
  have h1 : kk.toNat < 256 := kk.isLt
  have h2 : x.val < 16 := x.isLt
  simp only [formatI, BitVec.toNat_append, BitVec.toNat_ofFin]
  rw [← Nat.shiftLeft_add_eq_or_of_lt h1, ← Nat.shiftLeft_add_eq_or_of_lt h2]
  simp only [Nat.shiftLeft_eq]
  omega

/-- Format `R` as a number. -/
theorem formatR_toNat (m : Nibble) (x y : Reg) (n : Nibble) :
    (formatR m x y n).toNat = m.toNat * 0x1000 + x.val * 0x100 + y.val * 0x10 + n.toNat := by
  have h1 : n.toNat < 16 := n.isLt
  have h2 : x.val < 16 := x.isLt
  have h3 : y.val < 16 := y.isLt
  simp only [formatR, BitVec.toNat_append, BitVec.toNat_ofFin]
  rw [← Nat.shiftLeft_add_eq_or_of_lt h1, ← Nat.shiftLeft_add_eq_or_of_lt h3, ← Nat.shiftLeft_add_eq_or_of_lt h2]
  simp only [Nat.shiftLeft_eq]
  omega

/-! ## Bytes -/

theorem wordOfBytes_toNat (hi lo : Byte) : (wordOfBytes hi lo).toNat = hi.toNat * 0x100 + lo.toNat := by
  have h : lo.toNat < 256 := lo.isLt
  simp only [wordOfBytes, BitVec.toNat_append]
  rw [← Nat.shiftLeft_add_eq_or_of_lt h]
  simp only [Nat.shiftLeft_eq]

theorem highByte_toNat (w : Word) : (highByte w).toNat = w.toNat / 0x100 := by
  have := w.isLt
  simp only [highByte, BitVec.extractLsb'_toNat, Nat.shiftRight_eq_div_pow]
  omega

theorem lowByte_toNat (w : Word) : (lowByte w).toNat = w.toNat % 0x100 := by
  simp [lowByte, BitVec.extractLsb'_toNat]

/-- The two bytes of a word, put together again (R50). -/
theorem wordOfBytes_split (w : Word) : wordOfBytes (highByte w) (lowByte w) = w := by
  apply BitVec.eq_of_toNat_eq
  rw [wordOfBytes_toNat, highByte_toNat, lowByte_toNat]
  omega

theorem highByte_wordOfBytes (hi lo : Byte) : highByte (wordOfBytes hi lo) = hi := by
  apply BitVec.eq_of_toNat_eq
  have : lo.toNat < 256 := lo.isLt
  rw [highByte_toNat, wordOfBytes_toNat]
  omega

theorem lowByte_wordOfBytes (hi lo : Byte) : lowByte (wordOfBytes hi lo) = lo := by
  apply BitVec.eq_of_toNat_eq
  have : lo.toNat < 256 := lo.isLt
  rw [lowByte_toNat, wordOfBytes_toNat]
  omega

end Sys2Proof.Laws
end

