-- ==== Sys2Proof/Laws/State.lean ====
section
/-!
SUPPORT. One lemma for each field of State and each update of it, true by rfl: no later proof unfolds a record
update. The proofs are written (rfl), so that simp rewrites with them under a stack index or a decision too. Where a register is read after an update, see the `readReg` lemmas at the end.
-/

namespace Sys2Proof.Machine

variable (s : State)

@[simp] theorem State.writeReg_v (r : Reg) (b : Byte) : (s.writeReg r b).v = s.v.set r.val b := (rfl)
@[simp] theorem State.writeReg_i (r : Reg) (b : Byte) : (s.writeReg r b).i = s.i := (rfl)
@[simp] theorem State.writeReg_pc (r : Reg) (b : Byte) : (s.writeReg r b).pc = s.pc := (rfl)
@[simp] theorem State.writeReg_stack (r : Reg) (b : Byte) : (s.writeReg r b).stack = s.stack := (rfl)
@[simp] theorem State.writeReg_sp (r : Reg) (b : Byte) : (s.writeReg r b).sp = s.sp := (rfl)
@[simp] theorem State.writeReg_dt (r : Reg) (b : Byte) : (s.writeReg r b).dt = s.dt := (rfl)
@[simp] theorem State.writeReg_st (r : Reg) (b : Byte) : (s.writeReg r b).st = s.st := (rfl)
@[simp] theorem State.writeReg_mem (r : Reg) (b : Byte) : (s.writeReg r b).mem = s.mem := (rfl)
@[simp] theorem State.writeReg_fb (r : Reg) (b : Byte) : (s.writeReg r b).fb = s.fb := (rfl)
@[simp] theorem State.writeReg_policy (r : Reg) (b : Byte) : (s.writeReg r b).policy = s.policy := (rfl)

@[simp] theorem State.setPc_v (w : Word) : (s.setPc w).v = s.v := (rfl)
@[simp] theorem State.setPc_i (w : Word) : (s.setPc w).i = s.i := (rfl)
@[simp] theorem State.setPc_pc (w : Word) : (s.setPc w).pc = w := (rfl)
@[simp] theorem State.setPc_stack (w : Word) : (s.setPc w).stack = s.stack := (rfl)
@[simp] theorem State.setPc_sp (w : Word) : (s.setPc w).sp = s.sp := (rfl)
@[simp] theorem State.setPc_dt (w : Word) : (s.setPc w).dt = s.dt := (rfl)
@[simp] theorem State.setPc_st (w : Word) : (s.setPc w).st = s.st := (rfl)
@[simp] theorem State.setPc_mem (w : Word) : (s.setPc w).mem = s.mem := (rfl)
@[simp] theorem State.setPc_fb (w : Word) : (s.setPc w).fb = s.fb := (rfl)
@[simp] theorem State.setPc_policy (w : Word) : (s.setPc w).policy = s.policy := (rfl)

@[simp] theorem State.advance_v : (s.advance).v = s.v := (rfl)
@[simp] theorem State.advance_i : (s.advance).i = s.i := (rfl)
@[simp] theorem State.advance_pc : (s.advance).pc = s.pc + 2 := (rfl)
@[simp] theorem State.advance_stack : (s.advance).stack = s.stack := (rfl)
@[simp] theorem State.advance_sp : (s.advance).sp = s.sp := (rfl)
@[simp] theorem State.advance_dt : (s.advance).dt = s.dt := (rfl)
@[simp] theorem State.advance_st : (s.advance).st = s.st := (rfl)
@[simp] theorem State.advance_mem : (s.advance).mem = s.mem := (rfl)
@[simp] theorem State.advance_fb : (s.advance).fb = s.fb := (rfl)
@[simp] theorem State.advance_policy : (s.advance).policy = s.policy := (rfl)

@[simp] theorem State.withMem_v (m : Memory) : (s.withMem m).v = s.v := (rfl)
@[simp] theorem State.withMem_i (m : Memory) : (s.withMem m).i = s.i := (rfl)
@[simp] theorem State.withMem_pc (m : Memory) : (s.withMem m).pc = s.pc := (rfl)
@[simp] theorem State.withMem_stack (m : Memory) : (s.withMem m).stack = s.stack := (rfl)
@[simp] theorem State.withMem_sp (m : Memory) : (s.withMem m).sp = s.sp := (rfl)
@[simp] theorem State.withMem_dt (m : Memory) : (s.withMem m).dt = s.dt := (rfl)
@[simp] theorem State.withMem_st (m : Memory) : (s.withMem m).st = s.st := (rfl)
@[simp] theorem State.withMem_mem (m : Memory) : (s.withMem m).mem = m := (rfl)
@[simp] theorem State.withMem_fb (m : Memory) : (s.withMem m).fb = s.fb := (rfl)
@[simp] theorem State.withMem_policy (m : Memory) : (s.withMem m).policy = s.policy := (rfl)

@[simp] theorem State.withStack_v (k : Vector Word 16) (n : Fin 17) : (s.withStack k n).v = s.v := (rfl)
@[simp] theorem State.withStack_i (k : Vector Word 16) (n : Fin 17) : (s.withStack k n).i = s.i := (rfl)
@[simp] theorem State.withStack_pc (k : Vector Word 16) (n : Fin 17) : (s.withStack k n).pc = s.pc := (rfl)
@[simp] theorem State.withStack_stack (k : Vector Word 16) (n : Fin 17) : (s.withStack k n).stack = k := (rfl)
@[simp] theorem State.withStack_sp (k : Vector Word 16) (n : Fin 17) : (s.withStack k n).sp = n := (rfl)
@[simp] theorem State.withStack_dt (k : Vector Word 16) (n : Fin 17) : (s.withStack k n).dt = s.dt := (rfl)
@[simp] theorem State.withStack_st (k : Vector Word 16) (n : Fin 17) : (s.withStack k n).st = s.st := (rfl)
@[simp] theorem State.withStack_mem (k : Vector Word 16) (n : Fin 17) : (s.withStack k n).mem = s.mem := (rfl)
@[simp] theorem State.withStack_fb (k : Vector Word 16) (n : Fin 17) : (s.withStack k n).fb = s.fb := (rfl)
@[simp] theorem State.withStack_policy (k : Vector Word 16) (n : Fin 17) : (s.withStack k n).policy = s.policy := (rfl)

@[simp] theorem State.withDisplay_v (d : Display) : (s.withDisplay d).v = s.v := (rfl)
@[simp] theorem State.withDisplay_i (d : Display) : (s.withDisplay d).i = s.i := (rfl)
@[simp] theorem State.withDisplay_pc (d : Display) : (s.withDisplay d).pc = s.pc := (rfl)
@[simp] theorem State.withDisplay_stack (d : Display) : (s.withDisplay d).stack = s.stack := (rfl)
@[simp] theorem State.withDisplay_sp (d : Display) : (s.withDisplay d).sp = s.sp := (rfl)
@[simp] theorem State.withDisplay_dt (d : Display) : (s.withDisplay d).dt = s.dt := (rfl)
@[simp] theorem State.withDisplay_st (d : Display) : (s.withDisplay d).st = s.st := (rfl)
@[simp] theorem State.withDisplay_mem (d : Display) : (s.withDisplay d).mem = s.mem := (rfl)
@[simp] theorem State.withDisplay_fb (d : Display) : (s.withDisplay d).fb = d := (rfl)
@[simp] theorem State.withDisplay_policy (d : Display) : (s.withDisplay d).policy = s.policy := (rfl)

@[simp] theorem State.clearDisplay_v : (s.clearDisplay).v = s.v := (rfl)
@[simp] theorem State.clearDisplay_i : (s.clearDisplay).i = s.i := (rfl)
@[simp] theorem State.clearDisplay_pc : (s.clearDisplay).pc = s.pc := (rfl)
@[simp] theorem State.clearDisplay_stack : (s.clearDisplay).stack = s.stack := (rfl)
@[simp] theorem State.clearDisplay_sp : (s.clearDisplay).sp = s.sp := (rfl)
@[simp] theorem State.clearDisplay_dt : (s.clearDisplay).dt = s.dt := (rfl)
@[simp] theorem State.clearDisplay_st : (s.clearDisplay).st = s.st := (rfl)
@[simp] theorem State.clearDisplay_mem : (s.clearDisplay).mem = s.mem := (rfl)
@[simp] theorem State.clearDisplay_fb : (s.clearDisplay).fb = s.fb.clear := (rfl)
@[simp] theorem State.clearDisplay_policy : (s.clearDisplay).policy = s.policy := (rfl)

@[simp] theorem State.withTimers_v (d e : Byte) : (s.withTimers d e).v = s.v := (rfl)
@[simp] theorem State.withTimers_i (d e : Byte) : (s.withTimers d e).i = s.i := (rfl)
@[simp] theorem State.withTimers_pc (d e : Byte) : (s.withTimers d e).pc = s.pc := (rfl)
@[simp] theorem State.withTimers_stack (d e : Byte) : (s.withTimers d e).stack = s.stack := (rfl)
@[simp] theorem State.withTimers_sp (d e : Byte) : (s.withTimers d e).sp = s.sp := (rfl)
@[simp] theorem State.withTimers_dt (d e : Byte) : (s.withTimers d e).dt = d := (rfl)
@[simp] theorem State.withTimers_st (d e : Byte) : (s.withTimers d e).st = e := (rfl)
@[simp] theorem State.withTimers_mem (d e : Byte) : (s.withTimers d e).mem = s.mem := (rfl)
@[simp] theorem State.withTimers_fb (d e : Byte) : (s.withTimers d e).fb = s.fb := (rfl)
@[simp] theorem State.withTimers_policy (d e : Byte) : (s.withTimers d e).policy = s.policy := (rfl)

@[simp] theorem State.writeFlag_i (c : Bool) : (s.writeFlag c).i = s.i := (rfl)
@[simp] theorem State.writeFlag_pc (c : Bool) : (s.writeFlag c).pc = s.pc := (rfl)
@[simp] theorem State.writeFlag_stack (c : Bool) : (s.writeFlag c).stack = s.stack := (rfl)
@[simp] theorem State.writeFlag_sp (c : Bool) : (s.writeFlag c).sp = s.sp := (rfl)
@[simp] theorem State.writeFlag_dt (c : Bool) : (s.writeFlag c).dt = s.dt := (rfl)
@[simp] theorem State.writeFlag_st (c : Bool) : (s.writeFlag c).st = s.st := (rfl)
@[simp] theorem State.writeFlag_mem (c : Bool) : (s.writeFlag c).mem = s.mem := (rfl)
@[simp] theorem State.writeFlag_fb (c : Bool) : (s.writeFlag c).fb = s.fb := (rfl)
@[simp] theorem State.writeFlag_policy (c : Bool) : (s.writeFlag c).policy = s.policy := (rfl)

/-! ## Reading a register after an update -/

theorem State.readReg_def (r : Reg) : s.readReg r = s.v[r.val] := rfl

theorem State.readReg_writeReg (x r : Reg) (b : Byte) :
    (s.writeReg x b).readReg r = if r = x then b else s.readReg r := by
  simp only [State.readReg, State.writeReg, Vector.getElem_set, Fin.ext_iff, eq_comm]

@[simp] theorem State.readReg_writeReg_same (x : Reg) (b : Byte) : (s.writeReg x b).readReg x = b := by
  simp [State.readReg_writeReg]

theorem State.readReg_writeReg_other {x r : Reg} (h : r ≠ x) (b : Byte) :
    (s.writeReg x b).readReg r = s.readReg r := by
  simp [State.readReg_writeReg, h]

/-- The flag write is last, so VF reads as the flag (45_alu.md R124). -/
theorem State.readReg_writeFlag (r : Reg) (c : Bool) :
    (s.writeFlag c).readReg r = if r = VF then flagByte c else s.readReg r :=
  State.readReg_writeReg s VF r (flagByte c)

@[simp] theorem State.readReg_setPc (w : Word) (r' : Reg) : (s.setPc w).readReg r' = s.readReg r' := (rfl)
@[simp] theorem State.readReg_advance (r' : Reg) : (s.advance).readReg r' = s.readReg r' := (rfl)
@[simp] theorem State.readReg_withMem (m : Memory) (r' : Reg) : (s.withMem m).readReg r' = s.readReg r' := (rfl)
@[simp] theorem State.readReg_withStack (k : Vector Word 16) (n : Fin 17) (r' : Reg) : (s.withStack k n).readReg r' = s.readReg r' := (rfl)
@[simp] theorem State.readReg_withDisplay (d : Display) (r' : Reg) : (s.withDisplay d).readReg r' = s.readReg r' := (rfl)
@[simp] theorem State.readReg_clearDisplay (r' : Reg) : (s.clearDisplay).readReg r' = s.readReg r' := (rfl)
@[simp] theorem State.readReg_withTimers (d e : Byte) (r' : Reg) : (s.withTimers d e).readReg r' = s.readReg r' := (rfl)

end Sys2Proof.Machine
end

