-- ==== Sys2Proof/Laws/Memory.lean ====
section
/-!
SUPPORT. The laws of memory: read after write, the canonical form kept by every operation, and one lemma for each
accessor (spec/20_memory.md R31 to R36).
-/

namespace Sys2Proof.Machine

/-! ## The canonical form -/

theorem Memory.wfFrom_nil (lo : Nat) : Memory.wfFrom lo [] = true := rfl

theorem Memory.wfFrom_cons (lo a : Nat) (w : Byte) (rest : Memory) :
    Memory.wfFrom lo ((a, w) :: rest) = true ↔
      lo ≤ a ∧ a < 4096 ∧ w ≠ Memory.resetByte a ∧ Memory.wfFrom (a + 1) rest = true := by
  simp [Memory.wfFrom, and_assoc]

/-- A lower bound may be lowered. -/
theorem Memory.wfFrom_mono {lo lo' : Nat} (h : lo' ≤ lo) :
    ∀ {m : Memory}, Memory.wfFrom lo m = true → Memory.wfFrom lo' m = true
  | [], _ => rfl
  | (a, w) :: rest, hm => by
    rw [Memory.wfFrom_cons] at hm ⊢
    exact ⟨h.trans hm.1, hm.2⟩

/-- An address below every entry reads as its reset contents. -/
theorem Memory.read_below {a : Nat} :
    ∀ {lo : Nat} {m : Memory}, Memory.wfFrom lo m = true → a < lo → m.read a = Memory.resetByte a
  | _, [], _, _ => rfl
  | lo, (b, w) :: rest, hm, ha => by
    rw [Memory.wfFrom_cons] at hm
    have hab : a ≠ b := by omega
    simp only [Memory.read, if_neg hab]
    exact Memory.read_below hm.2.2.2 (by omega)

/-- A write keeps the canonical form above a bound. -/
theorem Memory.wfFrom_write {a : Nat} (w : Byte) (ha : a < 4096) :
    ∀ {lo : Nat} {m : Memory}, Memory.wfFrom lo m = true → lo ≤ a → Memory.wfFrom lo (m.write a w) = true
  | lo, [], _, hlo => by
    by_cases hw : w = Memory.resetByte a
    · simp [Memory.write, hw, Memory.wfFrom]
    · simp [Memory.write, hw, hlo, ha, Memory.wfFrom]
  | lo, (b, u) :: rest, hm, hlo => by
    have hm' := hm
    rw [Memory.wfFrom_cons] at hm
    obtain ⟨h1, h2, h3, h4⟩ := hm
    by_cases hlt : a < b
    · by_cases hw : w = Memory.resetByte a
      · simpa [Memory.write, hlt, hw] using hm'
      · simp only [Memory.write, if_pos hlt, if_neg hw, Memory.wfFrom_cons]
        exact ⟨hlo, ha, hw, by omega, h2, h3, h4⟩
    · by_cases heq : a = b
      · subst heq
        by_cases hw : w = Memory.resetByte a
        · simp only [Memory.write, if_neg hlt, if_pos, hw]
          exact Memory.wfFrom_mono (by omega) h4
        · simp only [Memory.write, if_neg hlt, if_pos, if_neg hw, Memory.wfFrom_cons]
          exact ⟨h1, h2, hw, h4⟩
      · simp only [Memory.write, if_neg hlt, if_neg heq, Memory.wfFrom_cons]
        exact ⟨h1, h2, h3, Memory.wfFrom_write w ha h4 (by omega)⟩

/-- A write of one byte of the address space keeps the canonical form. -/
theorem Memory.wf_write {m : Memory} (h : m.wf = true) {a : Nat} (ha : a < 4096) (w : Byte) :
    (m.write a w).wf = true :=
  Memory.wfFrom_write w ha h (Nat.zero_le a)

/-- The reset memory lists nothing. -/
theorem Memory.wf_nil : Memory.wf [] = true := rfl

theorem State.reset_mem_wf : State.reset.mem.wf = true := rfl

/-! ## Read after write -/

theorem Memory.read_write_from (a b : Nat) (w : Byte) :
    ∀ {lo : Nat} {m : Memory}, Memory.wfFrom lo m = true →
      (m.write a w).read b = if b = a then w else m.read b
  | _, [], _ => by
    by_cases hw : w = Memory.resetByte a <;> by_cases hb : b = a <;> simp [Memory.write, Memory.read, hw, hb]
  | lo, (c, u) :: rest, hm => by
    have hm' := hm
    rw [Memory.wfFrom_cons] at hm
    obtain ⟨h1, h2, h3, h4⟩ := hm
    by_cases hlt : a < c
    · by_cases hw : w = Memory.resetByte a
      · have hbelow : Memory.read ((c, u) :: rest) a = Memory.resetByte a := by
          have hac : a ≠ c := by omega
          simp only [Memory.read, if_neg hac]
          exact Memory.read_below h4 (by omega)
        simp only [Memory.write, if_pos hlt, if_pos hw]
        split
        · next hb => subst hb; rw [hbelow, hw]
        · rfl
      · simp only [Memory.write, if_pos hlt, if_neg hw]
        by_cases hb : b = a
        · simp [Memory.read, hb]
        · rw [Memory.read, if_neg hb]
    · by_cases heq : a = c
      · subst heq
        by_cases hw : w = Memory.resetByte a
        · simp only [Memory.write, if_neg hlt, if_pos, hw]
          by_cases hb : b = a
          · rw [if_pos hb, hb]; exact Memory.read_below h4 (by omega)
          · rw [if_neg hb, Memory.read, if_neg hb]
        · simp only [Memory.write, if_neg hlt, if_pos, if_neg hw]
          by_cases hb : b = a
          · simp [Memory.read, hb]
          · simp [Memory.read, hb]
      · simp only [Memory.write, if_neg hlt, if_neg heq, Memory.read]
        by_cases hbc : b = c
        · have hba : b ≠ a := by omega
          simp [hbc, Ne.symm heq]
        · rw [if_neg hbc, if_neg hbc]
          exact Memory.read_write_from a b w h4

/-- A byte written reads back, and every other byte reads as before (R42). -/
theorem Memory.read_write {m : Memory} (h : m.wf = true) (a b : Nat) (w : Byte) :
    (m.write a w).read b = if b = a then w else m.read b :=
  Memory.read_write_from a b w h

theorem Memory.read_write_same {m : Memory} (h : m.wf = true) (a : Nat) (w : Byte) : (m.write a w).read a = w := by
  simp [Memory.read_write h]

theorem Memory.read_write_other {m : Memory} (h : m.wf = true) {a b : Nat} (hb : b ≠ a) (w : Byte) :
    (m.write a w).read b = m.read b := by
  simp [Memory.read_write h, hb]

/-! ## The accessors: when they answer, and what -/

theorem Memory.get8_of_lt (m : Memory) {a : Nat} (h : a < 4096) : m.get8 a = .ok (m.read a) := by
  simp [Memory.get8, Nat.not_le.mpr h]

theorem Memory.get16_of_lt (m : Memory) {a : Nat} (h : a < 4095) :
    m.get16 a = .ok (wordOfBytes (m.read a) (m.read (a + 1))) := by
  simp [Memory.get16, Nat.not_le.mpr h]

theorem Memory.get16_of_ge (m : Memory) {a : Nat} (h : 4095 ≤ a) : m.get16 a = .error .memoryOutOfBounds := by
  simp [Memory.get16, h]

theorem Memory.set8_ok {m m' : Memory} {a : Nat} {w : Byte} (h : m.set8 a w = .ok m') :
    a < 4096 ∧ m' = m.write a w := by
  unfold Memory.set8 at h
  split at h
  · cases h
  · cases h; exact ⟨by omega, rfl⟩

theorem Memory.set16_ok {m m' : Memory} {a : Nat} {w : Word} (h : m.set16 a w = .ok m') :
    a < 4095 ∧ m' = (m.write a (highByte w)).write (a + 1) (lowByte w) := by
  unfold Memory.set16 at h
  split at h
  · cases h
  · cases h; exact ⟨by omega, rfl⟩

theorem Memory.wf_set8 {m m' : Memory} (hm : m.wf = true) {a : Nat} {w : Byte} (h : m.set8 a w = .ok m') :
    m'.wf = true := by
  obtain ⟨ha, rfl⟩ := Memory.set8_ok h
  exact Memory.wf_write hm ha w

theorem Memory.wf_set16 {m m' : Memory} (hm : m.wf = true) {a : Nat} {w : Word} (h : m.set16 a w = .ok m') :
    m'.wf = true := by
  obtain ⟨ha, rfl⟩ := Memory.set16_ok h
  exact Memory.wf_write (Memory.wf_write hm (by omega) _) (by omega) _

/-! ## Placing a word for the next step -/

theorem fetchablePc_lt (s : State) : (fetchablePc s).toNat < 4095 := by
  unfold fetchablePc
  split
  · assumption
  · decide

/-- The next fetch gives the word placed: `withFetchWord` does what it is for. -/
theorem fetch_placeWord {s : State} (h : s.mem.wf = true) (op : Word) : fetch (s.placeWord op) = .ok op := by
  have hp := fetchablePc_lt s
  have h1 : (s.mem.write (fetchablePc s).toNat (highByte op)).wf = true := Memory.wf_write h (by omega) _
  simp only [fetch, State.placeWord, State.withMem_mem, State.withMem_pc, State.setPc_pc,
    Memory.get16_of_lt _ hp, Memory.read_write h1, Memory.read_write h]
  simp [Laws.wordOfBytes_split]

end Sys2Proof.Machine
end

