-- ==== Sys2Proof/Laws/Ops.lean ====
section
/-!
SUPPORT. One lemma for each shared operation of the meanings: the stack, the display, the flag, the skip, the ways a
tick ends, the fetch, the tick itself.
-/

namespace Sys2Proof.Machine

/-! ## How a tick ends -/

@[simp] theorem complete_eq (s : State) : complete s = ⟨s, .ok⟩ := rfl

@[simp] theorem raise_eq (f : Fault) (s : State) : raise f s = ⟨s, .error f⟩ := rfl

@[simp] theorem Execution.answer_eq (e : Execution) : e.answer = .next e.state := rfl

/-! ## The stack (42_control_flow.md R90, R93) -/

theorem State.push_full {s : State} (h : s.sp.val = 16) (w : Word) : s.push w = .error .stackOverflow := by
  simp [State.push, h]

theorem State.push_room {s : State} (h : s.sp.val < 16) (w : Word) :
    s.push w = .ok (s.withStack (s.stack.set s.sp.val w) ⟨s.sp.val + 1, by omega⟩) := by
  simp [State.push, h]

/-- Everything a push can do. -/
theorem State.push_cases (s : State) (w : Word) :
    (s.sp.val = 16 ∧ s.push w = .error .stackOverflow) ∨
      (∃ h : s.sp.val < 16,
        s.push w = .ok (s.withStack (s.stack.set s.sp.val w) ⟨s.sp.val + 1, by omega⟩)) := by
  by_cases h : s.sp.val < 16
  · exact .inr ⟨h, State.push_room h w⟩
  · exact .inl ⟨by omega, State.push_full (by omega) w⟩

theorem State.pop_empty {s : State} (h : s.sp.val = 0) : s.pop = .error .stackUnderflow := by
  simp [State.pop, h]

theorem State.pop_some {s : State} (h : s.sp.val ≠ 0) :
    s.pop = .ok (s.stack[s.sp.val - 1], s.withStack s.stack ⟨s.sp.val - 1, by omega⟩) := by
  simp [State.pop, h]

/-- Everything a pop can do. -/
theorem State.pop_cases (s : State) :
    (s.sp.val = 0 ∧ s.pop = .error .stackUnderflow) ∨
      (∃ _ : s.sp.val ≠ 0,
        s.pop = .ok (s.stack[s.sp.val - 1], s.withStack s.stack ⟨s.sp.val - 1, by omega⟩)) := by
  by_cases h : s.sp.val = 0
  · exact .inl ⟨h, State.pop_empty h⟩
  · exact .inr ⟨h, State.pop_some h⟩

/-! ## The display (41_display_cls.md R80 to R82) -/

theorem Display.getPixel_of_lt (d : Display) {x y : Nat} (hx : x < 64) (hy : y < 32) :
    d.getPixel x y = .ok (d[y][x]) := by
  simp [Display.getPixel, hx, hy]

theorem Display.getPixel_clear (d : Display) {x y : Nat} (hx : x < 64) (hy : y < 32) :
    d.clear.getPixel x y = .ok false := by
  simp [Display.getPixel, Display.clear, hx, hy]

theorem Display.setPixel_of_lt (d : Display) {x y : Nat} (hx : x < 64) (hy : y < 32) (p : Bool) :
    d.setPixel x y p = .ok (d.set y (d[y].set x p)) := by
  simp [Display.setPixel, hx, hy]

/-! ## The carry (45_alu.md R124) -/

theorem wideSum_toNat (a b : Byte) : (wideSum a b).toNat = a.toNat + b.toNat := by
  have ha : a.toNat < 256 := a.isLt
  have hb : b.toNat < 256 := b.isLt
  simp [wideSum, BitVec.toNat_add]
  omega

theorem sumByte_toNat (a b : Byte) : (sumByte a b).toNat = (a.toNat + b.toNat) % 256 := by
  simp [sumByte, wideSum_toNat]

theorem carryOut_iff (a b : Byte) : carryOut a b = true ↔ 255 < a.toNat + b.toNat := by
  simp [carryOut, wideSum_toNat]

/-! ## Operands (30_encoding.md R53) -/

theorem addrOperand_toNat (nnn : Addr12) : (addrOperand nnn).toNat = nnn.toNat := by
  have h : nnn.toNat < 4096 := nnn.isLt
  simp [addrOperand]
  omega

/-! ## The skip (43_skips.md) -/

@[simp] theorem skipIf_true (s : State) : skipIf true s = ⟨s.advance, .ok⟩ := rfl

@[simp] theorem skipIf_false (s : State) : skipIf false s = ⟨s, .ok⟩ := rfl

/-! ## The fetch and the tick (40_cycle.md R70 to R72) -/

theorem fetch_of_lt {s : State} (h : s.pc.toNat < 4095) :
    fetch s = .ok (wordOfBytes (s.mem.read s.pc.toNat) (s.mem.read (s.pc.toNat + 1))) :=
  Memory.get16_of_lt _ h

theorem fetch_of_ge {s : State} (h : 4095 ≤ s.pc.toNat) : fetch s = .error .memoryOutOfBounds :=
  Memory.get16_of_ge _ h

/-- Everything a fetch can do. -/
theorem fetch_cases (s : State) :
    (4095 ≤ s.pc.toNat ∧ fetch s = .error .memoryOutOfBounds) ∨
      (s.pc.toNat < 4095 ∧ ∃ op, fetch s = .ok op) := by
  by_cases h : s.pc.toNat < 4095
  · exact .inr ⟨h, _, fetch_of_lt h⟩
  · exact .inl ⟨by omega, fetch_of_ge (by omega)⟩

/-- `exec` answers the state that the execute step leaves: a next state, for every instruction and every state. -/
theorem exec_eq_perform (i : Instr) (s : State) : exec i s = .next (perform i s).state := by cases i <;> rfl

/-- An equation about `perform` says both what `exec` answers and what is returned beside it. -/
theorem exec_of_perform {i : Instr} {s t : State} {r : TickResult} (h : perform i s = ⟨t, r⟩) :
    exec i s = .next t ∧ (perform i s).result = r := by
  rw [exec_eq_perform, h]; exact ⟨rfl, rfl⟩

/-- `step` answers the state that the tick leaves: a next state, from every state (R70, R77). -/
theorem step_eq_tick (s : State) : step s = .next (tick s).state := by
  unfold step tick
  cases fetch s with
  | error f => rfl
  | ok op => exact exec_eq_perform _ _

/-- An equation about `tick` says both what `step` answers and what is returned beside it. -/
theorem step_of_tick {s t : State} {r : TickResult} (h : tick s = ⟨t, r⟩) :
    step s = .next t ∧ (tick s).result = r := by
  rw [step_eq_tick, h]; exact ⟨rfl, rfl⟩

/-- A tick whose fetch succeeds. -/
theorem tick_of_fetch_ok {s : State} {op : Word} (h : fetch s = .ok op) :
    tick s = perform (decodeWord op) s.advance := by
  simp [tick, h]

/-- A tick whose fetch fails. -/
theorem tick_of_fetch_error {s : State} {f : Fault} (h : fetch s = .error f) : tick s = ⟨s, .error f⟩ := by
  simp [tick, h]

/-- A step whose fetch succeeds. -/
theorem step_of_fetch_ok {s : State} {op : Word} (h : fetch s = .ok op) :
    step s = exec (decodeWord op) s.advance := by
  simp [step, h]

/-- A step whose fetch fails leaves the state as it was. -/
theorem step_of_fetch_error {s : State} {f : Fault} (h : fetch s = .error f) : step s = .next s := by
  simp [step, h]

/-- After a successful fetch the advance cannot wrap (10_state.md R15). -/
theorem advance_toNat {s : State} (h : s.pc.toNat < 4095) : s.advance.pc.toNat = s.pc.toNat + 2 := by
  simp [BitVec.toNat_add]
  omega

end Sys2Proof.Machine
end

