-- ==== Sys2Proof/Laws/Exec.lean ====
section
/-!
SUPPORT. What executing each instruction leaves and returns, as one equation in terms of the named updates: later
proofs cite these, `exec_eq_perform`, `step_eq_tick` and the lemmas of Laws/State.lean, and unfold no meaning.
-/

namespace Sys2Proof.Machine

variable (s : State)

theorem perform_cls : perform .cls s = ⟨s.clearDisplay, .ok⟩ := rfl

theorem perform_ret_empty (h : s.sp.val = 0) : perform .ret s = ⟨s, .error .stackUnderflow⟩ := by
  simp [perform, performRet, State.pop_empty h]

theorem perform_ret (h : s.sp.val ≠ 0) :
    perform .ret s = ⟨(s.withStack s.stack ⟨s.sp.val - 1, by omega⟩).setPc
      s.stack[s.sp.val - 1], .ok⟩ := by
  simp [perform, performRet, State.pop_some h]

theorem perform_sys (nnn : Addr12) : perform (.sys nnn) s = ⟨s, .error .notImplemented⟩ := rfl

theorem perform_jp_top {nnn : Addr12} (h : nnn.toNat > 0xFFE) :
    perform (.jp nnn) s = ⟨s, .error .invalidJumpTarget⟩ := by
  simp only [perform, performJp, if_pos h, raise_eq]

theorem perform_jp {nnn : Addr12} (h : nnn.toNat ≤ 0xFFE) :
    perform (.jp nnn) s = ⟨s.setPc (addrOperand nnn), .ok⟩ := by
  simp only [perform, performJp, if_neg (Nat.not_lt.mpr h), complete_eq]

theorem perform_call_full (nnn : Addr12) (h : s.sp.val = 16) :
    perform (.call nnn) s = ⟨s, .error .stackOverflow⟩ := by
  simp [perform, performCall, State.push_full h]

theorem perform_call (nnn : Addr12) (h : s.sp.val < 16) :
    perform (.call nnn) s = ⟨(s.withStack (s.stack.set s.sp.val s.pc) ⟨s.sp.val + 1, by omega⟩).setPc
      (addrOperand nnn), .ok⟩ := by
  simp [perform, performCall, State.push_room h]

theorem perform_seImm (x : Reg) (kk : Byte) :
    perform (.seImm x kk) s = ⟨if s.readReg x = kk then s.advance else s, .ok⟩ := by
  simp [perform, performSeImm, skipIf, regOperand, immOperand]

theorem perform_sneImm (x : Reg) (kk : Byte) :
    perform (.sneImm x kk) s = ⟨if s.readReg x ≠ kk then s.advance else s, .ok⟩ := by
  simp [perform, performSneImm, skipIf, regOperand, immOperand]

theorem perform_seReg (x y : Reg) :
    perform (.seReg x y) s = ⟨if s.readReg x = s.readReg y then s.advance else s, .ok⟩ := by
  simp [perform, performSeReg, skipIf, regOperand]

theorem perform_ldImm (x : Reg) (kk : Byte) : perform (.ldImm x kk) s = ⟨s.writeReg x kk, .ok⟩ := rfl

theorem perform_addImm (x : Reg) (kk : Byte) :
    perform (.addImm x kk) s = ⟨s.writeReg x (sumByte (s.readReg x) kk), .ok⟩ := rfl

theorem perform_ldReg (x y : Reg) :
    perform (.ldReg x y) s = ⟨s.writeReg x (s.readReg y), .ok⟩ := rfl

theorem perform_orReg (x y : Reg) :
    perform (.orReg x y) s = ⟨s.writeReg x (s.readReg x ||| s.readReg y), .ok⟩ := rfl

theorem perform_andReg (x y : Reg) :
    perform (.andReg x y) s = ⟨s.writeReg x (s.readReg x &&& s.readReg y), .ok⟩ := rfl

theorem perform_xorReg (x y : Reg) :
    perform (.xorReg x y) s = ⟨s.writeReg x (s.readReg x ^^^ s.readReg y), .ok⟩ := rfl

theorem perform_addReg (x y : Reg) :
    perform (.addReg x y) s = ⟨(s.writeReg x (sumByte (s.readReg x) (s.readReg y))).writeFlag
      (carryOut (s.readReg x) (s.readReg y)), .ok⟩ := rfl

theorem perform_unmatched_fault (op : Word) (h : s.policy = .fault) :
    perform (.unmatched op) s = ⟨s, .error .unknownOpcode⟩ := by
  simp [perform, performUnmatched, h]

theorem perform_unmatched_noop (op : Word) (h : s.policy = .noop) :
    perform (.unmatched op) s = ⟨s, .ok⟩ := by
  simp [perform, performUnmatched, h]

/-! ## Everything executing can do -/

/-- The inversion of `perform`, so of `exec` (`exec_eq_perform`): what holds of each of its outcomes, guards included,
holds of whatever it gives. -/
theorem perform_cases {P : Instr → Execution → Prop}
    (cls : P .cls ⟨s.clearDisplay, .ok⟩)
    (retEmpty : s.sp.val = 0 → P .ret ⟨s, .error .stackUnderflow⟩)
    (ret : s.sp.val ≠ 0 → P .ret ⟨(s.withStack s.stack ⟨s.sp.val - 1, by omega⟩).setPc
      (s.stack[s.sp.val - 1]'(by omega)), .ok⟩)
    (sys : ∀ nnn, P (.sys nnn) ⟨s, .error .notImplemented⟩)
    (jp : ∀ nnn : Addr12, nnn.toNat ≤ 0xFFE → P (.jp nnn) ⟨s.setPc (addrOperand nnn), .ok⟩)
    (jpTop : ∀ nnn : Addr12, nnn.toNat > 0xFFE → P (.jp nnn) ⟨s, .error .invalidJumpTarget⟩)
    (callFull : ∀ nnn, s.sp.val = 16 → P (.call nnn) ⟨s, .error .stackOverflow⟩)
    (call : ∀ nnn, ∀ h : s.sp.val < 16, P (.call nnn) ⟨(s.withStack (s.stack.set s.sp.val s.pc)
      ⟨s.sp.val + 1, by omega⟩).setPc (addrOperand nnn), .ok⟩)
    (seImm : ∀ x kk, P (.seImm x kk) ⟨if s.readReg x = kk then s.advance else s, .ok⟩)
    (sneImm : ∀ x kk, P (.sneImm x kk) ⟨if s.readReg x ≠ kk then s.advance else s, .ok⟩)
    (seReg : ∀ x y, P (.seReg x y) ⟨if s.readReg x = s.readReg y then s.advance else s, .ok⟩)
    (ldImm : ∀ x kk, P (.ldImm x kk) ⟨s.writeReg x kk, .ok⟩)
    (addImm : ∀ x kk, P (.addImm x kk) ⟨s.writeReg x (sumByte (s.readReg x) kk), .ok⟩)
    (ldReg : ∀ x y, P (.ldReg x y) ⟨s.writeReg x (s.readReg y), .ok⟩)
    (orReg : ∀ x y, P (.orReg x y) ⟨s.writeReg x (s.readReg x ||| s.readReg y), .ok⟩)
    (andReg : ∀ x y, P (.andReg x y) ⟨s.writeReg x (s.readReg x &&& s.readReg y), .ok⟩)
    (xorReg : ∀ x y, P (.xorReg x y) ⟨s.writeReg x (s.readReg x ^^^ s.readReg y), .ok⟩)
    (addReg : ∀ x y, P (.addReg x y) ⟨(s.writeReg x (sumByte (s.readReg x) (s.readReg y))).writeFlag
      (carryOut (s.readReg x) (s.readReg y)), .ok⟩)
    (unmatchedFault : ∀ op, s.policy = .fault → P (.unmatched op) ⟨s, .error .unknownOpcode⟩)
    (unmatchedNoop : ∀ op, s.policy = .noop → P (.unmatched op) ⟨s, .ok⟩)
    (i : Instr) : P i (perform i s) := by
  cases i
  case ret =>
    rcases State.pop_cases s with ⟨h, -⟩ | ⟨h, -⟩
    · rw [perform_ret_empty s h]; exact retEmpty h
    · rw [perform_ret s h]; exact ret h
  case jp nnn =>
    by_cases h : nnn.toNat ≤ 0xFFE
    · rw [perform_jp s h]; exact jp nnn h
    · rw [perform_jp_top s (by omega)]; exact jpTop nnn (by omega)
  case call nnn =>
    rcases State.push_cases s s.pc with ⟨h, -⟩ | ⟨h, -⟩
    · rw [perform_call_full s nnn h]; exact callFull nnn h
    · rw [perform_call s nnn h]; exact call nnn h
  case unmatched op =>
    cases h : s.policy
    · rw [perform_unmatched_fault s op h]; exact unmatchedFault op h
    · rw [perform_unmatched_noop s op h]; exact unmatchedNoop op h
  case seImm x kk => rw [perform_seImm]; exact seImm x kk
  case sneImm x kk => rw [perform_sneImm]; exact sneImm x kk
  case seReg x y => rw [perform_seReg]; exact seReg x y
  all_goals apply_assumption

/-- The inversion of `tick`, so of `step` (`step_eq_tick`): the fetch failed, or the decoded instruction was
performed. -/
theorem tick_cases :
    (4095 ≤ s.pc.toNat ∧ fetch s = .error .memoryOutOfBounds ∧ tick s = ⟨s, .error .memoryOutOfBounds⟩) ∨
      (s.pc.toNat < 4095 ∧ ∃ op, fetch s = .ok op ∧ tick s = perform (decodeWord op) s.advance) := by
  rcases fetch_cases s with ⟨hp, hf⟩ | ⟨hp, op, hf⟩
  · exact .inl ⟨hp, hf, tick_of_fetch_error hf⟩
  · exact .inr ⟨hp, op, hf, tick_of_fetch_ok hf⟩

end Sys2Proof.Machine
end

