-- ==== Sys2Proof/Laws/HostPort.lean ====
section
/-!
SUPPORT. The host's moves and runs, one lemma for each (spec/00_scope.md R6, 60_exceptions.md R148, R156).
-/

namespace Sys2Proof.Machine

variable (s : State)

@[simp] theorem hostRun_nil : hostRun [] s = (s, []) := rfl

theorem hostRun_cons (m : HostMove) (rest : List HostMove) :
    hostRun (m :: rest) s =
      ((hostRun rest (hostMove m s).1).1, (hostMove m s).2 :: (hostRun rest (hostMove m s).1).2) := rfl

@[simp] theorem ticks_zero : ticks 0 s = (s, []) := rfl

theorem ticks_succ (n : Nat) :
    ticks (n + 1) s =
      ((ticks n (hostMove .tick s).1).1, (hostMove .tick s).2 :: (ticks n (hostMove .tick s).1).2) := rfl

/-- A tick as the host sees it. -/
@[simp] theorem hostMove_tick : hostMove .tick s = ((tick s).state, .result (tick s).result) := rfl

/-- The state a tick of the host leaves is the one `step` answers. -/
theorem hostMove_tick_step {t : State} (h : step s = .next t) : (hostMove .tick s).1 = t := by
  rw [step_eq_tick] at h; cases h; rfl

/-- Everything a write through the memory port can do. -/
theorem memoryWrite_cases (r : Except Fault Memory) :
    (∃ m, r = .ok m ∧ memoryWrite s r = (s.withMem m, .done)) ∨
      (∃ f, r = .error f ∧ memoryWrite s r = (s, .memoryFault f)) := by
  cases r with
  | ok m => exact .inl ⟨m, rfl, rfl⟩
  | error f => exact .inr ⟨f, rfl, rfl⟩

theorem countDown_toNat (b : Byte) : (countDown b).toNat = b.toNat - 1 := by
  have h : b.toNat < 256 := b.isLt
  by_cases hb : b = 0
  · simp [countDown, hb]
  · have h0 : b.toNat ≠ 0 := fun e => hb (BitVec.eq_of_toNat_eq (by simpa using e))
    simp only [countDown, if_neg hb, BitVec.toNat_sub]
    simp
    omega

end Sys2Proof.Machine
end

