-- ==== Sys2Proof/Laws/PerInstr.lean ====
section
/-!
SUPPORT. The per-instruction family WordClass: the word of a well-formed instruction lies outside rows 1 to 15 of the
opcode table exactly when the instruction is the default row's (spec/30_encoding.md R54, R56).
-/

namespace Sys2Proof.Laws

/-- The default row's constructor. -/
def WordClass.isDefault : Instr → Bool
  | .unmatched _ => true
  | .cls => false
  | .ret => false
  | .sys _ => false
  | .jp _ => false
  | .call _ => false
  | .seImm _ _ => false
  | .sneImm _ _ => false
  | .seReg _ _ => false
  | .ldImm _ _ => false
  | .addImm _ _ => false
  | .ldReg _ _ => false
  | .orReg _ _ => false
  | .andReg _ _ => false
  | .xorReg _ _ => false
  | .addReg _ _ => false

/-- The family's statement. -/
def WordClass.Statement (i : Instr) : Prop := i.wf = true → unmatchedWord (encodeWord i) = WordClass.isDefault i

/-- A word whose top nibble is below 9 and neither 5 nor 8 is matched. -/
theorem unmatchedWord_false_of_top {op : Word} {m r : Nat} (h : op.toNat = m * 0x1000 + r) (hr : r < 0x1000)
    (hm : m < 9) (h5 : m ≠ 5) (h8 : m ≠ 8) : unmatchedWord op = false := by
  have ht : op.toNat / 0x1000 = m := by omega
  simp [unmatchedWord, ht, h5, h8, hm]

/-- A word of top nibble 5 with function 0, or of top nibble 8 with a function below 5, is matched. -/
theorem unmatchedWord_false_of_function {op : Word} {m x y n : Nat}
    (h : op.toNat = m * 0x1000 + x * 0x100 + y * 0x10 + n) (hx : x < 16) (hy : y < 16)
    (hmn : m = 5 ∧ n = 0 ∨ m = 8 ∧ n < 5) : unmatchedWord op = false := by
  have ht : op.toNat / 0x1000 = m := by omega
  have hl : op.toNat % 0x10 = n := by omega
  rcases hmn with ⟨rfl, rfl⟩ | ⟨rfl, hn⟩
  · simp [unmatchedWord, ht, hl]
  · simp [unmatchedWord, ht, hl, hn]

theorem WordClass.cls : WordClass.Statement (.cls) := fun _ => by decide

theorem WordClass.ret : WordClass.Statement (.ret) := fun _ => by decide

theorem WordClass.sys (nnn : Addr12) : WordClass.Statement (.sys nnn) := fun _ =>
  unmatchedWord_false_of_top (formatA_toNat 0 nnn) nnn.isLt (by decide) (by decide) (by decide)

theorem WordClass.jp (nnn : Addr12) : WordClass.Statement (.jp nnn) := fun _ =>
  unmatchedWord_false_of_top (formatA_toNat 1 nnn) nnn.isLt (by decide) (by decide) (by decide)

theorem WordClass.call (nnn : Addr12) : WordClass.Statement (.call nnn) := fun _ =>
  unmatchedWord_false_of_top (formatA_toNat 2 nnn) nnn.isLt (by decide) (by decide) (by decide)

theorem WordClass.seImm (x : Reg) (kk : Byte) : WordClass.Statement (.seImm x kk) := fun _ =>
  unmatchedWord_false_of_top (r := x.val * 0x100 + kk.toNat)
    (by rw [encodeWord, formatI_toNat 3 x kk, Nat.add_assoc]) (by omega) (by decide) (by decide) (by decide)

theorem WordClass.sneImm (x : Reg) (kk : Byte) : WordClass.Statement (.sneImm x kk) := fun _ =>
  unmatchedWord_false_of_top (r := x.val * 0x100 + kk.toNat)
    (by rw [encodeWord, formatI_toNat 4 x kk, Nat.add_assoc]) (by omega) (by decide) (by decide) (by decide)

theorem WordClass.ldImm (x : Reg) (kk : Byte) : WordClass.Statement (.ldImm x kk) := fun _ =>
  unmatchedWord_false_of_top (r := x.val * 0x100 + kk.toNat)
    (by rw [encodeWord, formatI_toNat 6 x kk, Nat.add_assoc]) (by omega) (by decide) (by decide) (by decide)

theorem WordClass.addImm (x : Reg) (kk : Byte) : WordClass.Statement (.addImm x kk) := fun _ =>
  unmatchedWord_false_of_top (r := x.val * 0x100 + kk.toNat)
    (by rw [encodeWord, formatI_toNat 7 x kk, Nat.add_assoc]) (by omega) (by decide) (by decide) (by decide)

theorem WordClass.seReg (x y : Reg) : WordClass.Statement (.seReg x y) := fun _ =>
  unmatchedWord_false_of_function (formatR_toNat 5 x y 0) x.isLt y.isLt (by decide)

theorem WordClass.ldReg (x y : Reg) : WordClass.Statement (.ldReg x y) := fun _ =>
  unmatchedWord_false_of_function (formatR_toNat 8 x y 0) x.isLt y.isLt (by decide)

theorem WordClass.orReg (x y : Reg) : WordClass.Statement (.orReg x y) := fun _ =>
  unmatchedWord_false_of_function (formatR_toNat 8 x y 1) x.isLt y.isLt (by decide)

theorem WordClass.andReg (x y : Reg) : WordClass.Statement (.andReg x y) := fun _ =>
  unmatchedWord_false_of_function (formatR_toNat 8 x y 2) x.isLt y.isLt (by decide)

theorem WordClass.xorReg (x y : Reg) : WordClass.Statement (.xorReg x y) := fun _ =>
  unmatchedWord_false_of_function (formatR_toNat 8 x y 3) x.isLt y.isLt (by decide)

theorem WordClass.addReg (x y : Reg) : WordClass.Statement (.addReg x y) := fun _ =>
  unmatchedWord_false_of_function (formatR_toNat 8 x y 4) x.isLt y.isLt (by decide)

theorem WordClass.unmatched (op : Word) : WordClass.Statement (.unmatched op) := fun h => h

end Sys2Proof.Laws
end

