-- ==== Sys2Proof/Tests/Slice0.lean ====
section
/-!
SUPPORT. The model's own tests. Words are written out from the patterns of spec/30_encoding.md R54; expected results
are the vectors of spec/95_test_vectors.md, named by their ids; the witnesses show that each statement's hypotheses
can be met, at the boundaries of each clause.
-/

namespace Sys2Proof.Tests

open Sys2Proof Sys2Proof.Machine Sys2Proof.Machine.Claims

/-! ## Helpers -/

/-- Reset with one instruction word at 0x200. -/
def loaded (op : Word) : State := State.reset.placeWord op

/-- A state with the registers listed set to the bytes beside them. -/
def regs (s : State) : List (Reg × Byte) → State
  | [] => s
  | (r, b) :: rest => regs (s.writeReg r b) rest

/-- A state whose stack holds `n` entries, every slot `w`. -/
def stacked (s : State) (n : Fin 17) (w : Word) : State := s.withStack (Vector.replicate 16 w) n

/-- One reading of the state an outcome leaves. -/
def after {α : Type} (f : State → α) : Host.Outcome State Fault Refusal → Option α
  | .next t => some (f t)
  | .fault _ => none
  | .refused _ => none

/-- One reading of the state a step leaves, with the result the tick returns. -/
def ticked {α : Type} (f : State → α) (s : State) : Option α × TickResult := (after f (step s), (tick s).result)

/-- A register and PC: what most vectors check. -/
def seen (r : Reg) (t : State) : Byte × Word := (t.readReg r, t.pc)

/-! ## Well-formedness: each check refuses an ill-formed term -/

theorem test_wf_refuses_sys_that_is_cls : (Instr.sys 0x0E0).wf = false := by decide
theorem test_wf_refuses_sys_that_is_ret : (Instr.sys 0x0EE).wf = false := by decide
theorem test_wf_refuses_matched_5xy0 : (Instr.unmatched 0x5120).wf = false := by decide
theorem test_wf_refuses_matched_8xy4 : (Instr.unmatched 0x8124).wf = false := by decide
theorem test_wf_refuses_matched_sys : (Instr.unmatched 0x0000).wf = false := by decide
theorem test_wf_admits_8xy5 : (Instr.unmatched 0x8125).wf = true := by decide

/-! ## Decoding: every constructor by a word written out from its pattern -/

theorem test_decode_cls : decodeBytes [0x00, 0xE0] = .ok (.cls, []) := by decide
theorem test_decode_ret : decodeBytes [0x00, 0xEE] = .ok (.ret, []) := by decide
theorem test_decode_sys : decodeBytes [0x01, 0x23] = .ok (.sys 0x123, []) := by decide
theorem test_decode_sys_not_cls : decodeBytes [0x01, 0xE0] = .ok (.sys 0x1E0, []) := by decide
theorem test_decode_sys_not_ret : decodeBytes [0x0F, 0xEE] = .ok (.sys 0xFEE, []) := by decide
theorem test_decode_jp : decodeBytes [0x1A, 0xBC] = .ok (.jp 0xABC, []) := by decide
theorem test_decode_call : decodeBytes [0x23, 0x00] = .ok (.call 0x300, []) := by decide
theorem test_decode_seImm : decodeBytes [0x3A, 0x07] = .ok (.seImm 10 0x07, []) := by decide
theorem test_decode_sneImm : decodeBytes [0x4A, 0x07] = .ok (.sneImm 10 0x07, []) := by decide
theorem test_decode_seReg : decodeBytes [0x51, 0x20] = .ok (.seReg 1 2, []) := by decide
theorem test_decode_ldImm : decodeBytes [0x6A, 0x2A] = .ok (.ldImm 10 0x2A, []) := by decide
theorem test_decode_addImm : decodeBytes [0x7F, 0x01] = .ok (.addImm 15 0x01, []) := by decide
theorem test_decode_ldReg : decodeBytes [0x81, 0x20] = .ok (.ldReg 1 2, []) := by decide
theorem test_decode_orReg : decodeBytes [0x81, 0x21] = .ok (.orReg 1 2, []) := by decide
theorem test_decode_andReg : decodeBytes [0x81, 0x22] = .ok (.andReg 1 2, []) := by decide
theorem test_decode_xorReg : decodeBytes [0x81, 0x23] = .ok (.xorReg 1 2, []) := by decide
theorem test_decode_addReg : decodeBytes [0x81, 0x24] = .ok (.addReg 1 2, []) := by decide
theorem test_decode_unmatched : decodeBytes [0x81, 0x25] = .ok (.unmatched 0x8125, []) := by decide
theorem test_decode_unmatched_5xy1 : decodeBytes [0x51, 0x21] = .ok (.unmatched 0x5121, []) := by decide
theorem test_decode_no_bytes : decodeBytes [] = .error .noBytes := by decide
theorem test_decode_one_byte : decodeBytes [0x60] = .error .truncated := by decide
theorem test_decode_table_word : decodeTableWord 16 0x3A07 = some (.seImm 10 0x07) := by decide

/-! ## One tick of each instruction (spec/95_test_vectors.md) -/

/-- vC1: CLS clears a pixel the host has set. -/
theorem test_cls_vC1 : after (fun t => (t.fb.getPixel 7 5).toOption)
    (step (hostMove (.setPixel 7 5 true) (loaded 0x00E0)).1) = some (some false) := by decide
/-- vC3: 01E0 is SYS and clears nothing. -/
theorem test_cls_vC3 : ticked (fun t => (t.fb.getPixel 0 0).toOption) ((hostMove (.setPixel 0 0 true) (loaded 0x01E0)).1) =
    (some (some true), .error .notImplemented) := by decide
/-- vF1. -/
theorem test_ret_vF1 : ticked (fun t => (t.sp, t.pc)) (loaded 0x00EE) =
    (some (0, 0x0202), .error .stackUnderflow) := by decide
/-- vF3: the slot is kept (R16). -/
theorem test_ret_vF3 : ticked (fun t => (t.sp, t.pc, t.stack[15])) (stacked (loaded 0x00EE) 16 0x0300) =
    (some (15, 0x0300, 0x0300), .ok) := by decide
/-- vT1: a tick straight after reset. -/
theorem test_sys_vT1 : ticked (·.pc) State.reset = (some 0x0202, .error .notImplemented) := by
  decide
/-- vF9. -/
theorem test_jp_vF9 : ticked (·.pc) (loaded 0x1FFE) = (some 0x0FFE, .ok) := by decide
/-- vF10. -/
theorem test_jp_vF10 : ticked (·.pc) (loaded 0x1FFF) = (some 0x0202, .error .invalidJumpTarget) := by decide
/-- vF14. -/
theorem test_call_vF14 : ticked (fun t => (t.stack[15], t.sp, t.pc)) (stacked (loaded 0x2ABC) 15 0) =
    (some (0x0202, 16, 0x0ABC), .ok) := by decide
/-- vF15. -/
theorem test_call_vF15 : ticked (fun t => (t.stack[15], t.sp, t.pc)) (stacked (loaded 0x2ABC) 16 0x0999) =
    (some (0x0999, 16, 0x0202), .error .stackOverflow) := by decide
/-- vK1. -/
theorem test_seImm_vK1 : after (·.pc) (step (regs (loaded 0x3A07) [(10, 0x07)])) = some 0x0204 := by decide
/-- vK2. -/
theorem test_seImm_vK2 : after (·.pc) (step (regs (loaded 0x3A07) [(10, 0x08)])) = some 0x0202 := by decide
/-- vK4. -/
theorem test_sneImm_vK4 : after (·.pc) (step (regs (loaded 0x4A07) [(10, 0x08)])) = some 0x0204 := by decide
/-- vK5. -/
theorem test_sneImm_vK5 : after (·.pc) (step (regs (loaded 0x4A07) [(10, 0x07)])) = some 0x0202 := by decide
/-- vK6. -/
theorem test_seReg_vK6 : after (·.pc) (step (regs (loaded 0x5120) [(1, 0x33), (2, 0x33)])) = some 0x0204 := by decide
/-- vK7. -/
theorem test_seReg_vK7 : after (·.pc) (step (regs (loaded 0x5120) [(1, 0x33), (2, 0x34)])) = some 0x0202 := by decide
/-- vI1. -/
theorem test_ldImm_vI1 : ticked (seen 10) (loaded 0x6A2A) = (some (0x2A, 0x0202), .ok) := by decide
/-- vI6: VF is not cleared. -/
theorem test_addImm_vI6 : after (fun t => (t.readReg 0, t.readReg VF)) (step (regs (loaded 0x7005) [(0, 0xFE), (15, 0x01)])) =
    some (0x03, 0x01) := by decide
/-- vI8: VF is the destination. -/
theorem test_addImm_vI8 : ticked (seen VF) (regs (loaded 0x7F01) [(15, 0xFF)]) = (some (0x00, 0x0202), .ok) := by
  decide
/-- vA1. -/
theorem test_ldReg_vA1 : after (fun t => (t.readReg 10, t.readReg 11)) (step (regs (loaded 0x8AB0) [(10, 0x11), (11, 0x22)])) =
    some (0x22, 0x22) := by decide
/-- vA9: OR does not clear VF. -/
theorem test_orReg_vA9 : after (fun t => (t.readReg 0, t.readReg VF))
    (step (regs (loaded 0x8011) [(0, 0xF0), (1, 0x0F), (15, 0x01)])) = some (0xFF, 0x01) := by decide
/-- vA3. -/
theorem test_andReg_vA3 : after (fun t => (t.readReg 10, t.readReg 11)) (step (regs (loaded 0x8AB2) [(10, 0x5A), (11, 0xA5)])) =
    some (0x00, 0xA5) := by decide
/-- vA7: x = y. -/
theorem test_xorReg_vA7 : ticked (seen 10) (regs (loaded 0x8AA3) [(10, 0x5A)]) =
    (some (0x00, 0x0202), .ok) := by decide
/-- vA17: y = F, the old VF is the addend. -/
theorem test_addReg_vA17 : after (fun t => (t.readReg 0, t.readReg VF)) (step (regs (loaded 0x80F4) [(0, 0xFE), (15, 0x07)])) =
    some (0x05, 0x01) := by decide
/-- vA19: x = F, the flag lands last. -/
theorem test_addReg_vA19 : after (fun t => (t.readReg VF, t.readReg 0)) (step (regs (loaded 0x8F04) [(15, 0xF0), (0, 0x20)])) =
    some (0x01, 0x20) := by decide
/-- vU1, policy fault. -/
theorem test_unmatched_vU1 : ticked (·.pc) (loaded 0x9120) = (some 0x0202, .error .unknownOpcode) := by decide
/-- vU1, policy noop. -/
theorem test_unmatched_vU1_noop : ticked (·.pc) { loaded 0x9120 with policy := .noop } =
    (some 0x0202, .ok) := by decide

/-! ## Memory, display, fetch -/

/-- vM4: an odd address. -/
theorem test_get16_vM4 : (State.reset.mem.get16 0x001).toOption = some 0x9090 := by decide
/-- vM15: digit F. -/
theorem test_font_vM15 : (List.range 5).map (fun k => State.reset.mem.read (0x04B + k)) =
    [0xF0, 0x80, 0xF0, 0x80, 0x80] := by decide
/-- vM10. -/
theorem test_set16_vM10 : ((State.reset.mem.set16 0x300 0x1234).toOption.map fun m => (m.read 0x300, m.read 0x301)) =
    some (0x12, 0x34) := by decide
/-- vP5: coordinates do not wrap. -/
theorem test_setPixel_vP5 : (State.reset.fb.setPixel 64 31 true).toOption = none := by decide
/-- vT2: PC = 0x0FFF. -/
theorem test_fetch_vT2 : ticked (·.pc) (State.reset.setPc 0x0FFF) =
    (some 0x0FFF, .error .memoryOutOfBounds) := by decide
/-- vT4: the last fetch address. -/
theorem test_fetch_vT4 : ticked (seen 10) ((State.reset.setPc 0x0FFE).placeWord 0x6A55) =
    (some (0x55, 0x1000), .ok) := by decide
/-- vT5: an odd fetch address. -/
theorem test_fetch_vT5 : ticked (seen 11) ((State.reset.setPc 0x0201).placeWord 0x6B07) =
    (some (0x07, 0x0203), .ok) := by decide
/-- A write of the reset contents leaves nothing listed: the canonical form. -/
theorem test_write_back_is_canonical : (Memory.write (Memory.write [] 0x300 0x12) 0x300 0x00) = [] := by decide

/-! ## Witnesses: each statement's hypotheses can be met -/

theorem witness_DecodeOfEncode : (Instr.sys 0x0EF).wf = true ∧ (Instr.unmatched 0x8FF5).wf = true := by decide
theorem witness_Census : (0x7FFF : Word).toNat / 0x1000 ≠ 5 ∧ (0x7FFF : Word).toNat / 0x1000 ≠ 8 ∧
    (0x9000 : Word).toNat / 0x1000 = 9 := by decide
theorem witness_Ret : (loaded 0x00EE).sp.val = 0 ∧ (stacked State.reset 1 0).sp.val = 0 + 1 ∧
    (stacked State.reset 16 0).sp.val = 15 + 1 := by decide
theorem witness_Jp : (0xFFE : Addr12).toNat ≤ 0xFFE ∧ (0xFFF : Addr12).toNat = 0xFFF := by decide
theorem witness_Call : (stacked State.reset 16 0).sp.val = 16 ∧ State.reset.sp.val = 0 ∧
    (stacked State.reset 15 0).sp.val = 15 := by decide
theorem witness_SeImm : (regs State.reset [(15, 0xFF)]).readReg 15 = 0xFF ∧ State.reset.readReg 0 ≠ 0xFF := by decide
theorem witness_SneImm : ∃ t u, exec (.seImm 0 0xFF) State.reset = .next t ∧ exec (.sneImm 0 0xFF) State.reset = .next u :=
  ⟨_, _, rfl, rfl⟩
theorem witness_SeReg : State.reset.readReg 0 = State.reset.readReg 15 ∧
    (regs State.reset [(15, 1)]).readReg 0 ≠ (regs State.reset [(15, 1)]).readReg 15 ∧
    ∃ t, exec (.seReg 15 15) State.reset = .next t :=
  ⟨by decide, by decide, _, rfl⟩
theorem witness_AddReg : (14 : Reg) ≠ VF := by decide
theorem witness_Unmatched : State.reset.policy = .fault ∧ ({ State.reset with policy := .noop } : State).policy = .noop := by
  decide
theorem witness_StepRuns : (State.reset.setPc 0xFFE).pc.toNat ≤ 0xFFE ∧
    decodeBytes [(State.reset.setPc 0xFFE).mem.read 0xFFE, (State.reset.setPc 0xFFE).mem.read (0xFFE + 1)] =
      .ok (.sys 0, []) := by decide
theorem witness_Fetch : 4095 ≤ (State.reset.setPc 0xFFF).pc.toNat ∧ (State.reset.setPc 0xFFE).pc.toNat ≤ 0xFFE := by decide
theorem witness_ErrorLeaves : (tick (State.reset.setPc 0xFFF)).result = .error .memoryOutOfBounds ∧
    (tick State.reset).result = .error .notImplemented := by decide
theorem witness_PcAfter : 0xFFF ≤ (State.reset.setPc 0xFFF).pc.toNat ∧ fetch (loaded 0x1ABC) = .ok 0x1ABC ∧
    (tick (loaded 0x1ABC)).result = .ok ∧
    (tick (loaded 0x1FFF)).result = .error .invalidJumpTarget := by decide
/-- 0x0000 is none of the words that touch pixels, the stack or a register. -/
theorem witness_TickTouches : fetch State.reset = .ok 0x0000 ∧ (0x0000 : Word) ≠ 0x00E0 ∧ (0x0000 : Word) ≠ 0x00EE ∧
    (0x0000 : Word).toNat / 0x1000 = 0 := by decide
theorem witness_EachError : ∃ t, step (loaded 0x1FFF) = .next t := ⟨_, rfl⟩
theorem witness_EachError_rows : fetch (stacked (loaded 0x2FFF) 16 0) = .ok 0x2FFF ∧ fetch (loaded 0x00EE) = .ok 0x00EE ∧
    fetch (loaded 0x1FFF) = .ok 0x1FFF ∧ fetch (loaded 0x0FFF) = .ok 0x0FFF ∧ fetch (loaded 0xFFFF) = .ok 0xFFFF ∧
    unmatchedWord 0xFFFF = true := by decide
theorem witness_FailedFetch : 0xFFF ≤ (State.reset.setPc 0xFFF).pc.toNat := by decide
theorem witness_BadTarget_call : fetch (stacked (loaded 0x2FFF) 15 0) = .ok 0x2FFF ∧
    (stacked (loaded 0x2FFF) 15 0).sp.val < 16 := by decide
theorem witness_BadTarget_ret : fetch (stacked (loaded 0x00EE) 16 0xFFF) = .ok 0x00EE ∧
    (stacked (loaded 0x00EE) 16 0xFFF).sp.val = 15 + 1 ∧
    0xFFF ≤ ((stacked (loaded 0x00EE) 16 0xFFF).stack[15]).toNat := by decide
theorem witness_JumpToSelf : fetch (loaded 0x1200) = .ok 0x1200 ∧
    (0x1200 : Word).toNat = 0x1000 + (loaded 0x1200).pc.toNat := by decide
theorem witness_RetUndoesCall : (stacked State.reset 15 0).sp.val < 16 ∧
    ∃ t, exec (.call 0x300) (stacked State.reset 15 0) = .next t :=
  ⟨by decide, _, rfl⟩
theorem witness_PolicyDecides : fetch (loaded 0x6A2A) = .ok 0x6A2A ∧ unmatchedWord 0x6A2A = false := by decide
theorem witness_Pixels : fetch (loaded 0x00E0) = .ok 0x00E0 ∧ fetch State.reset ≠ .ok 0x00E0 := by decide

/-- A state that meets the invariant with a live stack entry and a byte of memory written. -/
def sound : State := (stacked State.reset 1 0x1000).withMem [(0x300, 0x12)]

theorem sound_meets_the_invariant : sound.Inv :=
  ⟨by decide, by decide, fun _ _ => by simp [sound, stacked, State.withStack, State.withMem]⟩

theorem witness_TickKeeps : sound.Inv ∧ ∃ t, step sound = .next t := ⟨sound_meets_the_invariant, _, rfl⟩
theorem witness_HostRun : sound.Inv ∧ [HostMove.set8 0x200 0x60, .timerTick, .tick][2]? = some .tick ∧
    ((hostRun [.set8 0x200 0x60, .timerTick, .tick] sound).1.pc = 0x0202) :=
  ⟨sound_meets_the_invariant, by decide, by decide⟩
theorem witness_ResetValues : 0x050 ≤ 0x050 ∧ (63 : Nat) < 64 ∧ (31 : Nat) < 32 := by decide
theorem witness_Font : (15 : Nat) < 16 ∧ (4 : Nat) < 5 := by decide
theorem witness_Set8 : Memory.wf [(0x000, 0x11), (0xFFF, 0x01)] = true ∧ (4095 : Nat) < 4096 ∧ 4096 ≤ 4096 := by decide
theorem witness_Set16 : Memory.wf [(0x000, 0x11), (0xFFF, 0x01)] = true ∧ (4094 : Nat) < 4095 ∧ 4095 ≤ 4095 := by decide
theorem witness_TwoBytes : Memory.wf [(0xFFF, 0x01)] = true ∧ (4094 : Nat) < 4095 := by decide
theorem witness_Canonical : Memory.wf [(0x300, 0x12)] = true ∧ Memory.wf (Memory.write [] 0x300 0x12) = true ∧
    ∀ a, Memory.read [(0x300, 0x12)] a = Memory.read (Memory.write [] 0x300 0x12) a :=
  ⟨by decide, by decide, fun _ => rfl⟩
theorem witness_SetPixel : (64 ≤ 64 ∨ 32 ≤ 31) ∧ (64 ≤ 63 ∨ 32 ≤ 32) ∧ (63 : Nat) < 64 ∧ (31 : Nat) < 32 ∧
    ((63, 31) : Nat × Nat) ≠ (62, 31) := by decide
theorem witness_HostMoves : HostMove.set8 0x1000 1 ≠ .tick ∧ HostMove.set8 0x1000 1 ≠ .reset ∧
    (hostMove (.set8 0x1000 1) State.reset).2 ≠ .done := by decide
theorem witness_FetchSees : State.reset.mem.wf = true ∧ (State.reset.setPc 0xFFE).pc.toNat ≤ 0xFFE := by decide
theorem witness_HostReset : sound.policy = Config.unknownOpcodePolicy := by decide

/-! ## The host's runs (Safety.lean) -/

/-- Memory is written before the first tick. -/
theorem test_legalRun : legalRun [.reset, .set8 0x200 0x60, .tick, .writeDelay 3, .tick] = true := by decide
/-- A write after the first tick is not provided for (R156). -/
theorem test_legalRun_refuses_late_write : legalRun [.reset, .tick, .set8 0x200 0x60] = false := by decide
/-- The status numbers of R140. -/
theorem test_result_code : (TickResult.error .unknownOpcode).code = 6 ∧ TickResult.ok.code = 0 := by decide
/-- `withFetchWord` places a word for the next step even where PC allows no fetch (log entry 19). -/
theorem test_withFetchWord_past_the_end : ticked (seen 10) ((State.reset.setPc 0x1002).withFetchWord 16 0x6A2A) =
    (some (0x2A, 0x0202), .ok) := by decide
/-- A tick that fails hands its error over once: nothing of it can be observed afterwards (R22, R75). -/
theorem test_error_is_not_recorded : (hostRun [.tick, .observe] State.reset).2 =
    [.result (.error .notImplemented), .observed (State.reset.advance.registers)] := by decide
/-- A loader's moves (R173). -/
theorem test_loadMoves : (hostRun (loadMoves [(0x200, 0x6A), (0x201, 0x2A)] ++ [.tick]) State.reset).2 =
    [.done, .done, .result .ok] := by decide

end Sys2Proof.Tests
end

/-! ## The invariant of a state (10_state.md R15, R18) -/

namespace Sys2Proof.Machine

variable {s t : State}

/-- The invariant reads memory, SP, the stack and PC alone: where the first three stay, only the bound on PC is left
to check. -/
theorem State.Inv.of_frame (h : s.Inv) (hmem : t.mem = s.mem) (hstack : t.stack = s.stack) (hsp : t.sp = s.sp)
    (hpc : t.pc.toNat ≤ 0x1002) : t.Inv where
  memWf := hmem ▸ h.memWf
  pcBound := hpc
  stack := by
    have hs := h.stack
    unfold State.stackSound at hs ⊢
    rw [hstack, hsp]
    exact hs

theorem State.Inv.setPc (h : s.Inv) {w : Word} (hw : w.toNat ≤ 0x1002) : (s.setPc w).Inv :=
  h.of_frame rfl rfl rfl hw

theorem State.Inv.writeReg (h : s.Inv) (x : Reg) (b : Byte) : (s.writeReg x b).Inv :=
  h.of_frame rfl rfl rfl h.pcBound

theorem State.Inv.writeFlag (h : s.Inv) (c : Bool) : (s.writeFlag c).Inv := h.writeReg VF (flagByte c)

theorem State.Inv.withDisplay (h : s.Inv) (d : Display) : (s.withDisplay d).Inv :=
  h.of_frame rfl rfl rfl h.pcBound

theorem State.Inv.withTimers (h : s.Inv) (d e : Byte) : (s.withTimers d e).Inv :=
  h.of_frame rfl rfl rfl h.pcBound

theorem State.Inv.withMem (h : s.Inv) {m : Memory} (hm : m.wf = true) : (s.withMem m).Inv where
  memWf := hm
  pcBound := h.pcBound
  stack := h.stack

/-- Every jump's target is a 12-bit address, so within the bound on PC. -/
theorem addrOperand_le (nnn : Addr12) : (addrOperand nnn).toNat ≤ 0x1002 := by
  have := nnn.isLt
  rw [addrOperand_toNat]
  omega

/-- A pushed return address joins the live entries (R18): it needs the range that the post-fetch PC has. -/
theorem State.Inv.pushed (h : s.Inv) {w : Word} (hw : 0x0002 ≤ w.toNat ∧ w.toNat ≤ 0x1000) (hsp : s.sp.val < 16) :
    (s.withStack (s.stack.set s.sp.val w) ⟨s.sp.val + 1, by omega⟩).Inv where
  memWf := h.memWf
  pcBound := h.pcBound
  stack := by
    intro k hk
    simp only [State.withStack_sp, State.withStack_stack, Vector.getElem_set] at hk ⊢
    by_cases hnew : s.sp.val = k.val
    · rw [if_pos hnew]
      exact hw
    · rw [if_neg hnew]
      exact h.stack k (by omega)

/-- A pop only ends the life of the top entry. -/
theorem State.Inv.popped (h : s.Inv) : (s.withStack s.stack ⟨s.sp.val - 1, by omega⟩).Inv where
  memWf := h.memWf
  pcBound := h.pcBound
  stack k hk := h.stack k (by simp only [State.withStack_sp] at hk; omega)

/-- The entry a RET takes as its target is a live one. -/
theorem State.Inv.top_le (h : s.Inv) (hsp : s.sp.val ≠ 0) : (s.stack[s.sp.val - 1]'(by omega)).toNat ≤ 0x1002 := by
  have htop : s.stack[s.sp.val - 1].toNat ≤ 0x1000 := (h.stack ⟨s.sp.val - 1, by omega⟩ (by simp only; omega)).2
  omega

/-! ## Execute and the tick keep it -/

/-- A skip from a post-fetch PC stays within the bound, whatever its condition. -/
theorem State.Inv.skip (h : s.Inv) (hpc : s.pc.toNat ≤ 0x1000) (c : Prop) [Decidable c] :
    (if c then s.advance else s).Inv := by
  split
  · exact h.setPc (by bv_omega)
  · exact h

/-- The execute step keeps the invariant from a state whose PC is a post-fetch one, 0x0002..0x1000 (R15). -/
theorem perform_keeps_inv (h : s.Inv) (hlo : 0x0002 ≤ s.pc.toNat) (hhi : s.pc.toNat ≤ 0x1000) (i : Instr) :
    (perform i s).state.Inv := by
  apply perform_cases s (P := fun _ e => e.state.Inv)
  case cls => exact h.withDisplay _
  case ret => exact fun hsp => h.popped.setPc (h.top_le hsp)
  case jp => exact fun nnn _ => h.setPc (addrOperand_le nnn)
  case call => exact fun nnn hsp => (h.pushed ⟨hlo, hhi⟩ hsp).setPc (addrOperand_le nnn)
  case seImm | sneImm | seReg => exact fun _ _ => h.skip hhi _
  case ldImm | addImm | ldReg | orReg | andReg | xorReg => exact fun x _ => h.writeReg x _
  case addReg => exact fun x _ => (h.writeReg x _).writeFlag _
  case retEmpty | sys => exact fun _ => h
  case jpTop | callFull | unmatchedFault | unmatchedNoop => exact fun _ _ => h

/-- A tick keeps the invariant: a fetch succeeds only from a PC below 0x0FFF, so the post-fetch PC is in
0x0002..0x1000 (R15). -/
theorem tick_keeps_inv (h : s.Inv) : (tick s).state.Inv := by
  rcases tick_cases s with ⟨-, -, ht⟩ | ⟨hp, op, -, ht⟩
  · rw [ht]
    exact h
  · rw [ht]
    have hpc := advance_toNat hp
    have hadv : s.advance.Inv := h.of_frame rfl rfl rfl (by omega)
    exact perform_keeps_inv hadv (by omega) (by omega) _

/-! ## The host's moves and runs -/

theorem memoryReply_ne_done {α : Type} {reply : α → HostReply} (h : ∀ a, reply a ≠ .done) (r : Except Fault α) :
    memoryReply reply r ≠ .done := by
  cases r with
  | ok a => exact h a
  | error f => simp [memoryReply]

/-- What a move of the host other than a tick or a reset can leave and reply, from the state `s` (60_exceptions.md
R156). -/
inductive PortOutcome (s : State) : State × HostReply → Prop
  /-- Something read, or a refusal (R143): the state stays. -/
  | unchanged {r : HostReply} (h : r ≠ .done) : PortOutcome s (s, r)
  /-- A write through the memory port. -/
  | memory (m : Memory) (h : s.mem.wf = true → m.wf = true) : PortOutcome s (s.withMem m, .done)
  /-- A write through the display port. -/
  | display (d : Display) : PortOutcome s (s.withDisplay d, .done)
  /-- A write through the timer port. -/
  | timers (d e : Byte) : PortOutcome s (s.withTimers d e, .done)

/-- A write through the memory port, whose accessor keeps the canonical form. -/
theorem memoryWrite_portOutcome {r : Except Fault Memory} (h : ∀ m, r = .ok m → s.mem.wf = true → m.wf = true) :
    PortOutcome s (memoryWrite s r) := by
  rcases memoryWrite_cases s r with ⟨m, hr, hw⟩ | ⟨f, -, hw⟩
  · rw [hw]
    exact .memory m (h m hr)
  · rw [hw]
    exact .unchanged (by simp)

/-- Everything a move of the host can do, beside a tick and a reset. -/
theorem hostMove_portOutcome {m : HostMove} (s : State) (htick : m ≠ .tick) (hreset : m ≠ .reset) :
    PortOutcome s (hostMove m s) := by
  cases m with
  | reset => contradiction
  | tick => contradiction
  | get8 addr => exact .unchanged (memoryReply_ne_done (by simp) _)
  | get16 addr => exact .unchanged (memoryReply_ne_done (by simp) _)
  | set8 addr val => exact memoryWrite_portOutcome fun _ hok hm => Memory.wf_set8 hm hok
  | set16 addr val => exact memoryWrite_portOutcome fun _ hok hm => Memory.wf_set16 hm hok
  | getPixel x y =>
    simp only [hostMove]
    cases s.fb.getPixel x y with
    | ok p => exact .unchanged (by simp)
    | error e => exact .unchanged (by simp)
  | setPixel x y value =>
    simp only [hostMove]
    cases s.fb.setPixel x y value with
    | ok d => exact .display d
    | error e => exact .unchanged (by simp)
  | clear => exact .display _
  | readDelay => exact .unchanged (by simp)
  | readSound => exact .unchanged (by simp)
  | writeDelay b => exact .timers b s.st
  | writeSound b => exact .timers s.dt b
  | timerTick => exact .timers _ _
  | observe => exact .unchanged (by simp)

/-- The state after reset meets the invariant (10_state.md R10). -/
theorem State.inv_reset : State.reset.Inv where
  memWf := State.reset_mem_wf
  pcBound := by decide
  stack := fun _ hk => absurd hk (Nat.not_lt_zero _)

/-- The host's reset meets the invariant from any state, whatever policy it keeps. -/
theorem hostReset_inv (s : State) : (hostReset s).Inv :=
  State.inv_reset.of_frame rfl rfl rfl State.inv_reset.pcBound

/-- Every move of the host keeps the invariant. -/
theorem hostMove_keeps_inv (h : s.Inv) (m : HostMove) : (hostMove m s).1.Inv := by
  by_cases htick : m = .tick
  · subst htick
    exact tick_keeps_inv h
  by_cases hreset : m = .reset
  · subst hreset
    exact hostReset_inv s
  have hport := hostMove_portOutcome s htick hreset
  generalize hostMove m s = r at hport ⊢
  cases hport with
  | unchanged _ => exact h
  | memory mem hmem => exact h.withMem (hmem h.memWf)
  | display d => exact h.withDisplay d
  | timers d e => exact h.withTimers d e

theorem hostRun_keeps_inv (moves : List HostMove) (h : s.Inv) : (hostRun moves s).1.Inv := by
  induction moves generalizing s with
  | nil => exact h
  | cons m rest ih => exact ih (hostMove_keeps_inv h m)

/-- A run replies once for each move (60_exceptions.md R148). -/
theorem hostRun_replies_length (moves : List HostMove) (s : State) :
    (hostRun moves s).2.length = moves.length := by
  induction moves generalizing s with
  | nil => rfl
  | cons m rest ih => rw [hostRun_cons, List.length_cons, List.length_cons, ih]

/-- The reply at a place in a run is what the move there replies from some state of the run. -/
theorem hostRun_reply {moves : List HostMove} {k : Nat} {m : HostMove} (hm : moves[k]? = some m) (s : State) :
    ∃ u : State, (hostRun moves s).2[k]? = some (hostMove m u).2 := by
  induction moves generalizing s k with
  | nil => simp at hm
  | cons m' rest ih =>
    rw [hostRun_cons]
    cases k with
    | zero =>
      obtain rfl : m' = m := by simpa using hm
      exact ⟨s, rfl⟩
    | succ k => exact ih (by simpa using hm) _

/-! ## What the execute step does not look at (10_state.md R27) -/

/-- CLS is the one word 0x00E0 (41_display_cls.md R83). -/
theorem decodeWord_eq_cls {op : Word} (h : decodeWord op = .cls) : op = 0x00E0 := by
  contrapose! h
  unfold decodeWord decodeGroup8
  rw [if_neg h]
  repeat' split
  all_goals simp

/-- An update of the state that the execute step of no instruction can see, CLS aside: it leaves every element that an
instruction or the fetch reads, and it commutes with the three updates that instructions other than CLS make. -/
structure Unseen (f : State → State) : Prop where
  v : ∀ s, (f s).v = s.v
  pc : ∀ s, (f s).pc = s.pc
  stack : ∀ s, (f s).stack = s.stack
  sp : ∀ s, (f s).sp = s.sp
  mem : ∀ s, (f s).mem = s.mem
  policy : ∀ s, (f s).policy = s.policy
  writeReg : ∀ s x b, (f s).writeReg x b = f (s.writeReg x b)
  setPc : ∀ s w, (f s).setPc w = f (s.setPc w)
  withStack : ∀ s k n, (f s).withStack k n = f (s.withStack k n)

namespace Unseen

variable {f : State → State} (hf : Unseen f)
include hf

theorem readReg (s : State) (r : Reg) : (f s).readReg r = s.readReg r := by
  simp only [State.readReg, hf.v]

theorem advance (s : State) : (f s).advance = f s.advance := by
  simp only [State.advance, hf.pc, hf.setPc]

theorem writeFlag (s : State) (c : Bool) : (f s).writeFlag c = f (s.writeFlag c) := hf.writeReg s VF _

theorem skip (s : State) (c : Prop) [Decidable c] :
    (if c then (f s).advance else f s) = f (if c then s.advance else s) := by
  rw [hf.advance, apply_ite f]

theorem fetch_eq (s : State) : fetch (f s) = fetch s := by
  simp only [fetch, hf.mem, hf.pc]

/-- The execute step commutes with an unseen update, provided that clearing the display does where CLS is executed. -/
theorem perform_eq (s : State) (i : Instr) (hcls : i = .cls → (f s).clearDisplay = f s.clearDisplay) :
    perform i (f s) = ⟨f (perform i s).state, (perform i s).result⟩ := by
  revert hcls
  apply perform_cases s (P := fun i e => (i = .cls → (f s).clearDisplay = f s.clearDisplay) →
    perform i (f s) = ⟨f e.state, e.result⟩)
  case cls =>
    intro hcls
    rw [perform_cls, hcls rfl]
  case retEmpty =>
    intro hsp _
    rw [perform_ret_empty _ (by rwa [hf.sp])]
  case ret =>
    intro hsp _
    rw [perform_ret _ (by rwa [hf.sp])]
    simp only [hf.sp, hf.stack, hf.withStack, hf.setPc]
  case sys =>
    intro nnn _
    rw [perform_sys]
  case jp =>
    intro nnn hn _
    rw [perform_jp _ hn, hf.setPc]
  case jpTop =>
    intro nnn hn _
    rw [perform_jp_top _ hn]
  case callFull =>
    intro nnn hsp _
    rw [perform_call_full _ nnn (by rwa [hf.sp])]
  case call =>
    intro nnn hsp _
    rw [perform_call _ nnn (by rwa [hf.sp])]
    simp only [hf.sp, hf.pc, hf.stack, hf.withStack, hf.setPc]
  case seImm | sneImm | seReg =>
    intro _ _ _
    simp only [perform_seImm, perform_sneImm, perform_seReg, hf.readReg, hf.skip]
  case ldImm | addImm | ldReg | orReg | andReg | xorReg | addReg =>
    intro _ _ _
    simp only [perform_ldImm, perform_addImm, perform_ldReg, perform_orReg, perform_andReg, perform_xorReg,
      perform_addReg, hf.readReg, hf.writeReg, hf.writeFlag]
  case unmatchedFault =>
    intro op hp _
    rw [perform_unmatched_fault _ op (by rwa [hf.policy])]
  case unmatchedNoop =>
    intro op hp _
    rw [perform_unmatched_noop _ op (by rwa [hf.policy])]

/-- A tick commutes with an unseen update, with the same proviso where the word fetched is that of CLS. -/
theorem tick_eq (s : State)
    (hcls : fetch s = .ok 0x00E0 → (f s.advance).clearDisplay = f s.advance.clearDisplay) :
    tick (f s) = ⟨f (tick s).state, (tick s).result⟩ := by
  rcases tick_cases s with ⟨-, hfetch, ht⟩ | ⟨-, op, hfetch, ht⟩
  · rw [ht, tick_of_fetch_error ((hf.fetch_eq s).trans hfetch)]
  · rw [ht, tick_of_fetch_ok ((hf.fetch_eq s).trans hfetch), hf.advance]
    exact hf.perform_eq s.advance (decodeWord op) fun h => hcls (decodeWord_eq_cls h ▸ hfetch)

end Unseen

/-- I, DT and ST replaced: the elements that no instruction reads. -/
def State.withUnread (s : State) (i : Word) (d e : Byte) : State := { s with i := i, dt := d, st := e }

theorem unseen_withUnread (i : Word) (d e : Byte) : Unseen (·.withUnread i d e) := by
  constructor <;> intros <;> rfl

theorem unseen_withDisplay (d : Display) : Unseen (·.withDisplay d) := by
  constructor <;> intros <;> rfl

/-- No tick sees I, DT or ST: CLS leaves them too (10_state.md R13, R19). -/
theorem tick_withUnread (s : State) (i : Word) (d e : Byte) :
    tick (s.withUnread i d e) = ⟨(tick s).state.withUnread i d e, (tick s).result⟩ :=
  (unseen_withUnread i d e).tick_eq s fun _ => rfl

/-- No tick but that of CLS sees or writes a pixel. -/
theorem tick_withDisplay (d : Display) (h : fetch s ≠ .ok 0x00E0) :
    tick (s.withDisplay d) = ⟨(tick s).state.withDisplay d, (tick s).result⟩ :=
  (unseen_withDisplay d).tick_eq s fun h' => absurd h' h

/-- The tick of CLS: the display is cleared, whatever it held. -/
theorem tick_cls (h : fetch s = .ok 0x00E0) : tick s = ⟨s.advance.clearDisplay, .ok⟩ := by
  rw [tick_of_fetch_ok h]
  rfl

/-- The states that a CLS leaves from two framebuffers are equal. -/
theorem tick_withDisplay_of_cls (d : Display) (h : fetch s = .ok 0x00E0) : tick (s.withDisplay d) = tick s := by
  rw [tick_cls h, tick_cls (((unseen_withDisplay d).fetch_eq s).trans h)]
  rfl

/-! ## The obligations of 10_state.md -/

/-- Settles O34: a tick keeps the invariant, since the post-fetch PC that a CALL pushes is in 0x0002..0x1000. -/
theorem tickKeepsTheInvariant : Obligations.TickKeepsTheInvariant := by
  intro s t h hstep
  rw [step_eq_tick] at hstep
  cases hstep
  exact tick_keeps_inv h

/-- Settles O36, by induction on the list of moves. -/
theorem hostRunKeepsTheInvariant : Obligations.HostRunKeepsTheInvariant := by
  intro moves s h
  refine ⟨hostRun_keeps_inv moves h, hostRun_replies_length moves s, fun k hk => ?_⟩
  obtain ⟨u, hu⟩ := hostRun_reply hk s
  exact ⟨(tick u).result, hu⟩

/-- Settles O31: replacing I, DT and ST commutes with the tick. -/
theorem unreadStateDoesNotInfluenceATick : Obligations.UnreadStateDoesNotInfluenceATick := by
  intro s i d e
  obtain ⟨hstep, hresult⟩ := step_of_tick (tick_withUnread s i d e)
  exact ⟨(tick s).state, step_eq_tick s, hstep, hresult⟩

/-- Settles O32: replacing the framebuffer commutes with every tick but that of CLS, which leaves equal states. -/
theorem pixelsDoNotInfluenceATick : Obligations.PixelsDoNotInfluenceATick := by
  intro s d
  refine ⟨(tick s).state, step_eq_tick s, ?_⟩
  by_cases hcls : fetch s = .ok 0x00E0
  · obtain ⟨hstep, hresult⟩ := step_of_tick (tick_withDisplay_of_cls d hcls)
    exact ⟨(tick s).state.fb, hstep, fun _ => rfl, fun h => absurd hcls h, hresult⟩
  · obtain ⟨hstep, hresult⟩ := step_of_tick (tick_withDisplay d hcls)
    exact ⟨d, hstep, fun h => absurd h hcls, fun _ => rfl, hresult⟩

/-- Settles O47: a move other than a tick or a reset writes memory, the framebuffer or the timers alone, and then
replies that it is done. -/
theorem hostMovesLeaveTheCoreRegistersAlone : Obligations.HostMovesLeaveTheCoreRegistersAlone := by
  intro m s htick hreset
  have hport := hostMove_portOutcome s htick hreset
  generalize hostMove m s = r at hport ⊢
  cases hport with
  | unchanged _ => simp
  | memory mem _ => simp
  | display d => simp
  | timers d e => simp

/-- Settles O35. -/
theorem resetMeetsTheInvariant : Obligations.ResetMeetsTheInvariant := State.inv_reset

end Sys2Proof.Machine

/-! ## Memory: the accessors, the canonical form and the font (20_memory.md) -/

namespace Sys2Proof.Machine

/-! ### When an accessor refuses (R31) -/

/-- Every accessor checks first: it gives its error exactly when the check fails. -/
theorem refused_iff {α : Type} (c : Prop) [Decidable c] (f : Fault) (a : α) :
    (if c then .error f else .ok a : Except Fault α) = .error f ↔ c := by
  by_cases h : c
  · simp [h]
  · simp [h]

theorem Memory.get8_error_iff (m : Memory) (a : Nat) : m.get8 a = .error .memoryOutOfBounds ↔ 4096 ≤ a :=
  refused_iff (a ≥ 4096) _ _

theorem Memory.set8_error_iff (m : Memory) (a : Nat) (b : Byte) :
    m.set8 a b = .error .memoryOutOfBounds ↔ 4096 ≤ a :=
  refused_iff (a ≥ 4096) _ _

theorem Memory.get16_error_iff (m : Memory) (a : Nat) : m.get16 a = .error .memoryOutOfBounds ↔ 4095 ≤ a :=
  refused_iff (a ≥ 4095) _ _

theorem Memory.set16_error_iff (m : Memory) (a : Nat) (w : Word) :
    m.set16 a w = .error .memoryOutOfBounds ↔ 4095 ≤ a :=
  refused_iff (a ≥ 4095) _ _

/-! ### What a write leaves (R34 to R36) -/

theorem Memory.set8_of_lt (m : Memory) {a : Nat} (h : a < 4096) (b : Byte) : m.set8 a b = .ok (m.write a b) :=
  if_neg (Nat.not_le.mpr h)

theorem Memory.set16_of_lt (m : Memory) {a : Nat} (h : a < 4095) (w : Word) :
    m.set16 a w = .ok ((m.write a (highByte w)).write (a + 1) (lowByte w)) :=
  if_neg (Nat.not_le.mpr h)

/-- Where two reads agree, so do the two `get8`. -/
theorem Memory.get8_congr {m m' : Memory} {a : Nat} (h : m'.read a = m.read a) : m'.get8 a = m.get8 a := by
  simp only [Memory.get8, h]

/-- Every byte after two neighbouring ones are written. -/
theorem Memory.read_write_pair {m : Memory} (hm : m.wf = true) {a : Nat} (ha : a < 4095) (hi lo : Byte) (c : Nat) :
    ((m.write a hi).write (a + 1) lo).read c = if c = a + 1 then lo else if c = a then hi else m.read c := by
  rw [Memory.read_write (Memory.wf_write hm (by omega) hi), Memory.read_write hm]

/-- Two neighbouring bytes are read as one word, the lower address most significant (R36). -/
theorem Memory.get16_write_pair {m : Memory} (hm : m.wf = true) {a : Nat} (ha : a < 4095) (hi lo : Byte) :
    ((m.write a hi).write (a + 1) lo).get16 a = .ok (wordOfBytes hi lo) := by
  simp [Memory.get16_of_lt _ ha, Memory.read_write_pair hm ha]

/-- `get16` gives back the word that `set16` wrote (R33, R35). -/
theorem Memory.get16_of_set16 {m m' : Memory} (hm : m.wf = true) {a : Nat} {w : Word} (h : m.set16 a w = .ok m') :
    m'.get16 a = .ok w := by
  obtain ⟨ha, rfl⟩ := Memory.set16_ok h
  rw [Memory.get16_write_pair hm ha, Laws.wordOfBytes_split]

/-! ### The canonical form is unique (log entry 23) -/

/-- A listed byte differs from what a memory reads there whose entries all lie above it: that one reads the reset
contents, which the canonical form never lists. -/
theorem Memory.read_head_ne {lo a : Nat} {w : Byte} {rest m : Memory}
    (hl : Memory.wfFrom lo ((a, w) :: rest) = true) (hm : Memory.wfFrom (a + 1) m = true) :
    Memory.read ((a, w) :: rest) a ≠ m.read a := by
  rw [Memory.wfFrom_cons] at hl
  obtain ⟨-, -, hw, -⟩ := hl
  rw [Memory.read_below hm (Nat.lt_succ_self a)]
  simpa [Memory.read] using hw

/-- Two canonical memories with the same first address that read the same have tails that read the same. -/
theorem Memory.read_tail_eq {a : Nat} {w w' : Byte} {rest rest' : Memory}
    (hr : Memory.wfFrom (a + 1) rest = true) (hr' : Memory.wfFrom (a + 1) rest' = true)
    (h : ∀ c, Memory.read ((a, w) :: rest) c = Memory.read ((a, w') :: rest') c) (c : Nat) :
    rest.read c = rest'.read c := by
  by_cases hc : c = a
  · subst hc
    rw [Memory.read_below hr (Nat.lt_succ_self c), Memory.read_below hr' (Nat.lt_succ_self c)]
  · simpa [Memory.read, hc] using h c

theorem Memory.eq_of_read_eq {lo : Nat} {m m' : Memory} (hm : Memory.wfFrom lo m = true)
    (hm' : Memory.wfFrom lo m' = true) (h : ∀ c, m.read c = m'.read c) : m = m' := by
  induction m generalizing lo m' with
  | nil =>
    cases m' with
    | nil => rfl
    | cons e rest' => exact absurd (h e.1).symm (Memory.read_head_ne hm' (Memory.wfFrom_nil _))
  | cons e rest ih =>
    obtain ⟨a, w⟩ := e
    obtain ⟨hlo, hlt, hw, hr⟩ := (Memory.wfFrom_cons _ _ _ _).mp hm
    cases m' with
    | nil => exact absurd (h a) (Memory.read_head_ne hm (Memory.wfFrom_nil _))
    | cons e' rest' =>
      obtain ⟨b, u⟩ := e'
      obtain ⟨hlo', hlt', hu, hr'⟩ := (Memory.wfFrom_cons _ _ _ _).mp hm'
      rcases Nat.lt_trichotomy a b with hab | rfl | hba
      · have habove := (Memory.wfFrom_cons (a + 1) b u rest').mpr ⟨hab, hlt', hu, hr'⟩
        exact absurd (h a) (Memory.read_head_ne hm habove)
      · have hwu : w = u := by simpa [Memory.read] using h a
        rw [hwu, ih hr hr' (Memory.read_tail_eq hr hr' h)]
      · have habove := (Memory.wfFrom_cons (b + 1) a w rest).mpr ⟨hba, hlt, hw, hr⟩
        exact absurd (h b).symm (Memory.read_head_ne hm' habove)

/-! ### The host's write and the font -/

/-- The memory port's `set16`, at an address it accepts. -/
theorem hostMove_set16_of_ok {s : State} {a : Nat} {w : Word} {m : Memory} (h : s.mem.set16 a w = .ok m) :
    hostMove (.set16 a w) s = (s.withMem m, .done) := by
  simp only [hostMove, h, memoryWrite]

/-- At reset row `r` of digit `d` lies at 5 d + r (R40, R41). -/
theorem State.reset_read_sprite {d r : Nat} (hd : d < 16) (hr : r < 5) :
    State.reset.mem.read (spriteAddress d + r) = fontByte d r := by
  have hfont : d * 5 + r < 80 := by omega
  have hdigit : (d * 5 + r) / 5 = d := by omega
  have hrow : (d * 5 + r) % 5 = r := by omega
  change Memory.resetByte (d * 5 + r) = fontByte d r
  rw [Memory.resetByte, if_pos hfont, hdigit, hrow]

/-- The five bytes of a digit's sprite at reset are its rows in the font table. -/
theorem State.reset_sprite {d : Nat} (hd : d < 16) :
    (List.range 5).map (fun r => State.reset.mem.read (spriteAddress d + r)) = (List.range 5).map (fontByte d) :=
  List.map_congr_left fun _ hr => State.reset_read_sprite hd (List.mem_range.mp hr)

/-! ### The obligations of 20_memory.md -/

/-- Settles O41: `set8` is one `write`, and a read after it differs at its address alone. -/
theorem set8WritesExactlyOneByte : Obligations.Set8WritesExactlyOneByte := by
  intro m a b hm
  refine ⟨(m.set8_error_iff a b).mpr, fun ha => ⟨m.write a b, m.set8_of_lt ha b, ?_, fun c hc => ?_⟩⟩
  · rw [Memory.get8_of_lt _ ha, Memory.read_write_same hm]
  · have hread := Memory.read_write_other hm hc b
    exact ⟨hread, Memory.get8_congr hread⟩

/-- Settles O42: `set16` is two neighbouring writes, which `get16` reads as one word. -/
theorem set16WritesBigEndianAndGet16ReadsItBack : Obligations.Set16WritesBigEndianAndGet16ReadsItBack := by
  intro m a w hm
  refine ⟨(m.set16_error_iff a w).mpr, fun ha => ?_⟩
  have hset := m.set16_of_lt ha w
  have hread := Memory.read_write_pair hm ha (highByte w) (lowByte w)
  refine ⟨_, hset, Memory.get16_of_set16 hm hset, ?_, ?_, fun c hc hc' => ?_⟩
  · simp [hread, Laws.highByte_toNat]
  · simp [hread, Laws.lowByte_toNat]
  · simp [hread, hc, hc']

/-- Settles O43. -/
theorem twoByteWritesAreReadBigEndian : Obligations.TwoByteWritesAreReadBigEndian := by
  intro m a hi lo hm ha
  exact ⟨_, _, wordOfBytes hi lo, Memory.set8_of_lt _ (by omega) hi, Memory.set8_of_lt _ (by omega) lo,
    Memory.get16_write_pair hm ha hi lo, Laws.wordOfBytes_toNat hi lo⟩

/-- Settles O44, by induction on the entries: the lower of two first addresses would read differently in the two. -/
theorem canonicalMemoriesThatReadTheSameAreEqual : Obligations.CanonicalMemoriesThatReadTheSameAreEqual :=
  fun _ _ hm hm' h => Memory.eq_of_read_eq hm hm' h

/-- Settles O49: the fetch is the `get16` at PC of the memory that the port's `set16` left. -/
theorem fetchSeesTheHostsWrite : Obligations.FetchSeesTheHostsWrite := by
  intro s w hm hpc
  have hset := s.mem.set16_of_lt (Nat.lt_succ_of_le hpc) w
  rw [hostMove_set16_of_ok hset]
  exact ⟨rfl, Memory.get16_of_set16 hm hset⟩

/-- Settles O39: every sprite by its place in the table, digits 0 and F by their bytes. -/
theorem fontTableAtReset : Obligations.FontTableAtReset := by
  refine ⟨?_, ?_, fun d r hd hr => State.reset_read_sprite hd hr, ?_⟩
  · rw [Memory.get8_of_lt _ (by decide)]
    exact congrArg Except.ok (State.reset_read_sprite (d := 0) (r := 0) (by decide) (by decide))
  · rw [State.reset_sprite (by decide)]
    decide
  · rw [State.reset_sprite (by decide)]
    decide

/-- Settles O40. -/
theorem everyAccessChecksItsBounds : Obligations.EveryAccessChecksItsBounds :=
  fun m a b w => ⟨m.get8_error_iff a, m.set8_error_iff a b, m.get16_error_iff a, m.set16_error_iff a w⟩

end Sys2Proof.Machine

/-! ## The encoding: decode, encode and the opcode table (30_encoding.md) -/

namespace Sys2Proof.Laws

/-! ### The fields of a word laid out in a format (R51, R52) -/

@[simp] theorem fieldMajor_formatA (m : Nibble) (nnn : Addr12) : fieldMajor (formatA m nnn) = m := by
  apply BitVec.eq_of_toNat_eq
  rw [fieldMajor_toNat, formatA_toNat]
  omega

@[simp] theorem fieldNNN_formatA (m : Nibble) (nnn : Addr12) : fieldNNN (formatA m nnn) = nnn := by
  apply BitVec.eq_of_toNat_eq
  rw [fieldNNN_toNat, formatA_toNat]
  omega

@[simp] theorem fieldMajor_formatI (m : Nibble) (x : Reg) (kk : Byte) : fieldMajor (formatI m x kk) = m := by
  apply BitVec.eq_of_toNat_eq
  rw [fieldMajor_toNat, formatI_toNat]
  omega

@[simp] theorem fieldX_formatI (m : Nibble) (x : Reg) (kk : Byte) : fieldX (formatI m x kk) = x := by
  apply Fin.ext
  rw [fieldX_val, formatI_toNat]
  omega

@[simp] theorem fieldKK_formatI (m : Nibble) (x : Reg) (kk : Byte) : fieldKK (formatI m x kk) = kk := by
  apply BitVec.eq_of_toNat_eq
  rw [fieldKK_toNat, formatI_toNat]
  omega

@[simp] theorem fieldMajor_formatR (m : Nibble) (x y : Reg) (n : Nibble) : fieldMajor (formatR m x y n) = m := by
  apply BitVec.eq_of_toNat_eq
  rw [fieldMajor_toNat, formatR_toNat]
  omega

@[simp] theorem fieldX_formatR (m : Nibble) (x y : Reg) (n : Nibble) : fieldX (formatR m x y n) = x := by
  apply Fin.ext
  rw [fieldX_val, formatR_toNat]
  omega

@[simp] theorem fieldY_formatR (m : Nibble) (x y : Reg) (n : Nibble) : fieldY (formatR m x y n) = y := by
  apply Fin.ext
  rw [fieldY_val, formatR_toNat]
  omega

@[simp] theorem fieldN_formatR (m : Nibble) (x y : Reg) (n : Nibble) : fieldN (formatR m x y n) = n := by
  apply BitVec.eq_of_toNat_eq
  rw [fieldN_toNat, formatR_toNat]
  omega

theorem formatA_ne_formatA {m : Nibble} {a b : Addr12} (h : a ≠ b) : formatA m a ≠ formatA m b :=
  fun e => h (by simpa using congrArg fieldNNN e)

/-! ### A word as a format of its own fields -/

/-- A word of major opcode `m` is a format A word. -/
theorem formatA_fields {op : Word} {m : Nibble} (h : op.toNat / 0x1000 = m.toNat) : formatA m (fieldNNN op) = op := by
  apply BitVec.eq_of_toNat_eq
  rw [formatA_toNat, fieldNNN_toNat]
  omega

/-- A word of major opcode `m` is a format I word. -/
theorem formatI_fields {op : Word} {m : Nibble} (h : op.toNat / 0x1000 = m.toNat) :
    formatI m (fieldX op) (fieldKK op) = op := by
  apply BitVec.eq_of_toNat_eq
  rw [formatI_toNat, fieldX_val, fieldKK_toNat]
  omega

/-- A word of major opcode `m` and function `n` is a format R word. -/
theorem formatR_fields {op : Word} {m n : Nibble} (h : op.toNat / 0x1000 = m.toNat) (hn : op.toNat % 0x10 = n.toNat) :
    formatR m (fieldX op) (fieldY op) n = op := by
  apply BitVec.eq_of_toNat_eq
  rw [formatR_toNat, fieldX_val, fieldY_val]
  omega

/-! ### Everything the decoder can answer (R55) -/

/-- An unmatched word by its top nibble and its function (R56). -/
theorem unmatchedWord_iff (op : Word) : unmatchedWord op = true ↔
    op.toNat / 0x1000 = 5 ∧ op.toNat % 0x10 ≠ 0 ∨ op.toNat / 0x1000 = 8 ∧ 5 ≤ op.toNat % 0x10 ∨
      9 ≤ op.toNat / 0x1000 := by
  simp [unmatchedWord, or_assoc]

/-- The inversion of `decodeGroup8`. -/
theorem decodeGroup8_cases {P : Instr → Prop} (op : Word)
    (ldReg : op.toNat % 0x10 = 0 → P (.ldReg (fieldX op) (fieldY op)))
    (orReg : op.toNat % 0x10 = 1 → P (.orReg (fieldX op) (fieldY op)))
    (andReg : op.toNat % 0x10 = 2 → P (.andReg (fieldX op) (fieldY op)))
    (xorReg : op.toNat % 0x10 = 3 → P (.xorReg (fieldX op) (fieldY op)))
    (addReg : op.toNat % 0x10 = 4 → P (.addReg (fieldX op) (fieldY op)))
    (unmatched : 5 ≤ op.toNat % 0x10 → P (.unmatched op)) : P (decodeGroup8 op) := by
  rw [decodeGroup8, fieldN_toNat]
  split
  case h_1 h => exact ldReg h
  case h_2 h => exact orReg h
  case h_3 h => exact andReg h
  case h_4 h => exact xorReg h
  case h_5 h => exact addReg h
  case h_6 h0 h1 h2 h3 h4 =>
    simp only [imp_false] at h0 h1 h2 h3 h4
    exact unmatched (by omega)

/-- The inversion of `decodeWord`: what holds of each instruction that R55 gives a word, guards included, holds of the
one it decodes to. -/
theorem decodeWord_cases {P : Instr → Prop} (op : Word)
    (cls : op = 0x00E0 → P .cls)
    (ret : op = 0x00EE → P .ret)
    (sys : op.toNat / 0x1000 = 0 → op ≠ 0x00E0 → op ≠ 0x00EE → P (.sys (fieldNNN op)))
    (jp : op.toNat / 0x1000 = 1 → P (.jp (fieldNNN op)))
    (call : op.toNat / 0x1000 = 2 → P (.call (fieldNNN op)))
    (seImm : op.toNat / 0x1000 = 3 → P (.seImm (fieldX op) (fieldKK op)))
    (sneImm : op.toNat / 0x1000 = 4 → P (.sneImm (fieldX op) (fieldKK op)))
    (seReg : op.toNat / 0x1000 = 5 → op.toNat % 0x10 = 0 → P (.seReg (fieldX op) (fieldY op)))
    (ldImm : op.toNat / 0x1000 = 6 → P (.ldImm (fieldX op) (fieldKK op)))
    (addImm : op.toNat / 0x1000 = 7 → P (.addImm (fieldX op) (fieldKK op)))
    (ldReg : op.toNat / 0x1000 = 8 → op.toNat % 0x10 = 0 → P (.ldReg (fieldX op) (fieldY op)))
    (orReg : op.toNat / 0x1000 = 8 → op.toNat % 0x10 = 1 → P (.orReg (fieldX op) (fieldY op)))
    (andReg : op.toNat / 0x1000 = 8 → op.toNat % 0x10 = 2 → P (.andReg (fieldX op) (fieldY op)))
    (xorReg : op.toNat / 0x1000 = 8 → op.toNat % 0x10 = 3 → P (.xorReg (fieldX op) (fieldY op)))
    (addReg : op.toNat / 0x1000 = 8 → op.toNat % 0x10 = 4 → P (.addReg (fieldX op) (fieldY op)))
    (unmatched : unmatchedWord op = true → P (.unmatched op)) : P (decodeWord op) := by
  rw [unmatchedWord_iff] at unmatched
  rw [decodeWord, fieldMajor_toNat]
  split
  case h_1 h =>
    by_cases hcls : op = 0x00E0
    · rw [if_pos hcls]; exact cls hcls
    · rw [if_neg hcls]
      by_cases hret : op = 0x00EE
      · rw [if_pos hret]; exact ret hret
      · rw [if_neg hret]; exact sys h hcls hret
  case h_2 h => exact jp h
  case h_3 h => exact call h
  case h_4 h => exact seImm h
  case h_5 h => exact sneImm h
  case h_6 h =>
    by_cases hn : op.toNat % 0x10 = 0
    · rw [if_pos ((fieldN_eq_zero_iff op).mpr hn)]; exact seReg h hn
    · rw [if_neg (mt (fieldN_eq_zero_iff op).mp hn)]; exact unmatched (.inl ⟨h, hn⟩)
  case h_7 h => exact ldImm h
  case h_8 h => exact addImm h
  case h_9 h =>
    exact decodeGroup8_cases op (ldReg h) (orReg h) (andReg h) (xorReg h) (addReg h)
      fun hn => unmatched (.inr (.inl ⟨h, hn⟩))
  case h_10 h0 h1 h2 h3 h4 h5 h6 h7 h8 =>
    simp only [imp_false] at h0 h1 h2 h3 h4 h5 h6 h7 h8
    exact unmatched (.inr (.inr (by omega)))

/-! ### Decode and encode undo each other -/

/-- SYS excludes the addresses of CLS and RET (R54). -/
theorem wf_sys_iff (nnn : Addr12) : (Instr.sys nnn).wf = true ↔ nnn ≠ 0x0E0 ∧ nnn ≠ 0x0EE := by
  simp [Instr.wf]

/-- The decoded instruction is one its row admits, and its word is the one decoded. -/
theorem encodeWord_decodeWord (op : Word) : (decodeWord op).wf = true ∧ encodeWord (decodeWord op) = op := by
  apply decodeWord_cases op (P := fun i => i.wf = true ∧ encodeWord i = op)
  case cls | ret => exact fun h => ⟨rfl, h.symm⟩
  case sys =>
    intro h hcls hret
    have hop : formatA 0 (fieldNNN op) = op := formatA_fields h
    refine ⟨(wf_sys_iff _).mpr ⟨fun e => hcls ?_, fun e => hret ?_⟩, hop⟩
    all_goals rw [← hop, e]; rfl
  case jp | call => exact fun h => ⟨rfl, formatA_fields h⟩
  case seImm | sneImm | ldImm | addImm => exact fun h => ⟨rfl, formatI_fields h⟩
  case seReg | ldReg | orReg | andReg | xorReg | addReg => exact fun h hn => ⟨rfl, formatR_fields h hn⟩
  case unmatched => exact fun h => ⟨h, rfl⟩

/-- The family WordClass, of every instruction. -/
theorem wordClass : ∀ i, WordClass.Statement i
  | .cls => WordClass.cls
  | .ret => WordClass.ret
  | .sys nnn => WordClass.sys nnn
  | .jp nnn => WordClass.jp nnn
  | .call nnn => WordClass.call nnn
  | .seImm x kk => WordClass.seImm x kk
  | .sneImm x kk => WordClass.sneImm x kk
  | .seReg x y => WordClass.seReg x y
  | .ldImm x kk => WordClass.ldImm x kk
  | .addImm x kk => WordClass.addImm x kk
  | .ldReg x y => WordClass.ldReg x y
  | .orReg x y => WordClass.orReg x y
  | .andReg x y => WordClass.andReg x y
  | .xorReg x y => WordClass.xorReg x y
  | .addReg x y => WordClass.addReg x y
  | .unmatched op => WordClass.unmatched op

/-- The words that the decoder hands to the default row are the unmatched ones (R56). -/
theorem isDefault_decodeWord (op : Word) : WordClass.isDefault (decodeWord op) = unmatchedWord op := by
  obtain ⟨hwf, hop⟩ := encodeWord_decodeWord op
  rw [← wordClass _ hwf, hop]

theorem eq_unmatched_of_isDefault {i : Instr} (h : WordClass.isDefault i = true) : i = .unmatched (encodeWord i) := by
  cases i
  case unmatched op => rfl
  all_goals cases h

theorem decodeWord_of_unmatched {op : Word} (h : unmatchedWord op = true) : decodeWord op = .unmatched op := by
  have hi := eq_unmatched_of_isDefault ((isDefault_decodeWord op).trans h)
  rwa [(encodeWord_decodeWord op).2] at hi

/-- The words of top nibble 0 but those of CLS and RET are SYS (R55). -/
theorem decodeWord_sys {nnn : Addr12} (hcls : nnn ≠ 0x0E0) (hret : nnn ≠ 0x0EE) :
    decodeWord (formatA 0 nnn) = .sys nnn := by
  have hcls' : formatA 0 nnn ≠ 0x00E0 := formatA_ne_formatA hcls
  have hret' : formatA 0 nnn ≠ 0x00EE := formatA_ne_formatA hret
  rw [decodeWord, fieldMajor_formatA, fieldNNN_formatA]
  exact (if_neg hcls').trans (if_neg hret')

/-- A well-formed instruction is what its word decodes to: each field is read back from where its format puts it. -/
theorem decodeWord_encodeWord {i : Instr} (h : i.wf = true) : decodeWord (encodeWord i) = i := by
  cases i
  case cls | ret => rfl
  case sys nnn =>
    obtain ⟨hcls, hret⟩ := (wf_sys_iff nnn).mp h
    exact decodeWord_sys hcls hret
  case unmatched op => exact decodeWord_of_unmatched h
  case jp | call | seImm | sneImm | seReg | ldImm | addImm => simp [encodeWord, decodeWord]
  case ldReg | orReg | andReg | xorReg | addReg => simp [encodeWord, decodeWord, decodeGroup8]

/-- The decoder, said by the encoder: what a word decodes to is the one well-formed instruction of that word. -/
theorem decodeWord_eq_iff (op : Word) (i : Instr) : decodeWord op = i ↔ i.wf = true ∧ encodeWord i = op := by
  constructor
  · rintro rfl
    exact encodeWord_decodeWord op
  · rintro ⟨h, rfl⟩
    exact decodeWord_encodeWord h

theorem decodeWord_eq_unmatched_iff (op : Word) : decodeWord op = .unmatched op ↔ unmatchedWord op = true :=
  (decodeWord_eq_iff op (.unmatched op)).trans (and_iff_left rfl)

theorem decodeWord_eq_jp_iff (op : Word) (nnn : Addr12) :
    decodeWord op = .jp nnn ↔ op.toNat = 0x1000 + nnn.toNat := by
  have hword : (encodeWord (.jp nnn)).toNat = 0x1000 + nnn.toNat := formatA_toNat 1 nnn
  rw [decodeWord_eq_iff, ← BitVec.toNat_inj, hword, eq_comm (a := op.toNat)]
  exact and_iff_right rfl

theorem decodeBytes_encode (i : Instr) (rest : List Byte) :
    decodeBytes (encode i ++ rest) = .ok (decodeWord (encodeWord i), rest) := by
  simp [encode, decodeBytes, wordOfBytes_split]

/-! ### The table of R54 against the decoder -/

/-- The test of a row whose mask keeps all sixteen bits. -/
@[simp] theorem selects_exact (name : String) (v op : Word) :
    Row.selects ⟨name, 0xFFFF#16, v, []⟩ op =
      decide (op.toNat / 0x1000 = v.toNat / 0x1000 ∧ op.toNat % 0x1000 = v.toNat % 0x1000) := by
  have hmask : op &&& 0xFFFF#16 = op := BitVec.and_allOnes
  have h : op = v ↔ op.toNat / 0x1000 = v.toNat / 0x1000 ∧ op.toNat % 0x1000 = v.toNat % 0x1000 := by
    rw [← BitVec.toNat_inj]
    omega
  simp [Row.selects, beq_eq_decide, hmask, h]

/-- The test of a row whose mask keeps the top nibble. -/
@[simp] theorem selects_major (name : String) (except : List Word) {v : Word} (hv : v.toNat % 0x1000 = 0) (op : Word) :
    Row.selects ⟨name, 0xF000#16, v, except⟩ op =
      decide (op.toNat / 0x1000 = v.toNat / 0x1000 ∧ op ∉ except) := by
  have h : op &&& 0xF000#16 = v ↔ op.toNat / 0x1000 = v.toNat / 0x1000 := by
    rw [← BitVec.toNat_inj, maskMajor_toNat]
    omega
  simp [Row.selects, beq_eq_decide, h]

/-- The test of a row whose mask keeps the top nibble and the function. -/
@[simp] theorem selects_function (name : String) {v : Word} (hv : v.toNat % 0x1000 < 0x10) (op : Word) :
    Row.selects ⟨name, 0xF00F#16, v, []⟩ op =
      decide (op.toNat / 0x1000 = v.toNat / 0x1000 ∧ op.toNat % 0x10 = v.toNat % 0x10) := by
  have h : op &&& 0xF00F#16 = v ↔
      op.toNat / 0x1000 = v.toNat / 0x1000 ∧ op.toNat % 0x10 = v.toNat % 0x10 := by
    rw [← BitVec.toNat_inj, maskFunction_toNat]
    omega
  simp [Row.selects, beq_eq_decide, h]

/-- Every row's test holds of a word exactly when the word decodes to the row's instruction. -/
theorem selects_eq_mnemonic_decodeWord (op : Word) :
    ∀ r ∈ opcodeTable, r.selects op = decide (r.mnemonic = (decodeWord op).mnemonic) := by
  apply decodeWord_cases op (P := fun i => ∀ r ∈ opcodeTable, r.selects op = decide (r.mnemonic = i.mnemonic))
  case cls | ret => rintro rfl; decide
  case sys =>
    intro h hcls hret
    have hcls' : op.toNat % 0x1000 ≠ 0x0E0 := by bv_omega
    have hret' : op.toNat % 0x1000 ≠ 0x0EE := by bv_omega
    simpa [opcodeTable, Instr.mnemonic, h, hcls', hret'] using ⟨hcls, hret⟩
  case jp | call | seImm | sneImm | ldImm | addImm =>
    intro h
    simp [opcodeTable, Instr.mnemonic, h]
  case seReg | ldReg | orReg | andReg | xorReg | addReg =>
    intro h hn
    simp [opcodeTable, Instr.mnemonic, h, hn]
  case unmatched =>
    intro h
    rw [unmatchedWord_iff] at h
    simp [opcodeTable, Instr.mnemonic]
    omega

/-- The table has one row of each instruction's mnemonic, and none of the default row's. -/
theorem rows_of_mnemonic (i : Instr) : (opcodeTable.filter fun r => r.mnemonic = i.mnemonic).map Row.mnemonic =
    if WordClass.isDefault i = true then [] else [i.mnemonic] := by
  cases i <;> rfl

theorem selectedRows_eq (op : Word) : (opcodeTable.filter (·.selects op)).map Row.mnemonic =
    if unmatchedWord op = true then [] else [(decodeWord op).mnemonic] := by
  rw [List.filter_congr (selects_eq_mnemonic_decodeWord op), rows_of_mnemonic, isDefault_decodeWord]

/-! ### The census of R56 -/

/-- A predicate of period `a` holds as often in each of `k` periods. -/
theorem count_mul_of_periodic (p : Nat → Prop) [DecidablePred p] {a : Nat} (hp : Function.Periodic p a) (k : Nat) :
    Nat.count p (k * a) = k * Nat.count p a := by
  have hshift : (fun j => p (a + j)) = p := funext fun j => by rw [Nat.add_comm, hp]
  induction k with
  | zero => simp
  | succ k ih =>
    rw [Nat.succ_mul, Nat.succ_mul, Nat.add_comm, Nat.count_add]
    simp only [hshift, ih]
    exact Nat.add_comm _ _

/-- Where the function alone decides whether the words from `base` on are unmatched, every sixteen of them hold as many
unmatched ones. -/
theorem length_filter_unmatched {base k : Nat} {q : Nat → Prop} [DecidablePred q]
    (hq : ∀ n < k * 16, unmatchedWord (BitVec.ofNat 16 (base + n)) = true ↔ q (n % 16)) :
    ((List.range (k * 16)).filter fun n =>
      decodeWord (BitVec.ofNat 16 (base + n)) = .unmatched (BitVec.ofNat 16 (base + n))).length =
        k * Nat.count (fun n => q (n % 16)) 16 := by
  rw [← count_mul_of_periodic _ (fun n => by rw [Nat.add_mod_right]), Nat.count, List.countP_eq_length_filter]
  refine congrArg List.length (List.filter_congr fun n hn => ?_)
  simp only [decodeWord_eq_unmatched_iff, hq n (List.mem_range.mp hn)]

end Sys2Proof.Laws

namespace Sys2Proof.Machine

open Sys2Proof.Laws

/-! ### The obligations of 30_encoding.md -/

/-- Settles O1: the two bytes make the instruction's word again, and each field is read back from where its format puts
it. -/
theorem decodeOfEncodeIsTheInstruction : Obligations.DecodeOfEncodeIsTheInstruction := by
  intro i rest h
  rw [decodeBytes_encode, decodeWord_encodeWord h]

/-- Settles O2, by the decoder's cases: a word is its own fields laid out in the format of its row. -/
theorem encodeOfDecodeIsTheOpcode : Obligations.EncodeOfDecodeIsTheOpcode := encodeWord_decodeWord

/-- Settles O3, row by row: a row's test holds exactly where the decoder answers the row's instruction. -/
theorem decoderFollowsTheOpcodeTable : Obligations.DecoderFollowsTheOpcodeTable := selectedRows_eq

/-- Settles O28: the target is the PC of the fetch, which is at most 0xFFE, so the jump undoes the PC advance. -/
theorem jumpToSelfChangesNothing : Obligations.JumpToSelfChangesNothing := by
  intro s op hfetch hop
  have hpc : s.pc.toNat ≤ 0xFFE := by
    rcases fetch_cases s with ⟨-, herror⟩ | ⟨hlt, -⟩
    · cases hfetch.symm.trans herror
    · omega
  have hnnn : (fieldNNN op).toNat = s.pc.toNat := by
    rw [fieldNNN_toNat]
    omega
  have hdecode : decodeWord op = .jp (fieldNNN op) := (decodeWord_eq_jp_iff _ _).mpr (by rw [hnnn, hop])
  have htarget : addrOperand (fieldNNN op) = s.pc := BitVec.eq_of_toNat_eq ((addrOperand_toNat _).trans hnnn)
  have hself : s.advance.setPc s.pc = s := rfl
  apply step_of_tick
  rw [tick_of_fetch_ok hfetch, hdecode, perform_jp _ (by omega), htarget, hself]

/-- Settles O4: the unmatched words of top nibble 5 have a function other than 0, those of top nibble 8 a function from
5 on. -/
theorem censusOfUnmatchedOpcodes : Obligations.CensusOfUnmatchedOpcodes := by
  refine ⟨?_, ?_, fun op h5 h8 => ?_⟩
  · refine (length_filter_unmatched (base := 0x5000) (k := 256) (q := (· ≠ 0)) fun n hn => ?_).trans (by decide)
    rw [unmatchedWord_iff, BitVec.toNat_ofNat]
    omega
  · refine (length_filter_unmatched (base := 0x8000) (k := 256) (q := (5 ≤ ·)) fun n hn => ?_).trans (by decide)
    rw [unmatchedWord_iff, BitVec.toNat_ofNat]
    omega
  · rw [decodeWord_eq_unmatched_iff, unmatchedWord_iff]
    omega

/-- Settles O5, by running the decoder on the nine words. -/
theorem writtenOutWordsDecode : Obligations.WrittenOutWordsDecode := by
  unfold Obligations.WrittenOutWordsDecode
  decide

end Sys2Proof.Machine

/-! ## The tick: fetch, PC and write sets (40_cycle.md) -/

namespace Sys2Proof.Machine

open Sys2Proof.Laws Sys2Proof.Machine.Claims

/-! ### An execute step that returns an error (R75) -/

/-- An execute step that returns an error has written nothing, and the error is never the fetch's own. -/
theorem perform_of_error {i : Instr} {s : State} {f : Fault} :
    (perform i s).result = .error f → (perform i s).state = s ∧ f ≠ .memoryOutOfBounds := by
  apply perform_cases s (P := fun _ e => e.result = .error f → e.state = s ∧ f ≠ .memoryOutOfBounds)
  case retEmpty | sys =>
    rintro - ⟨⟩
    exact ⟨rfl, nofun⟩
  case jpTop | callFull | unmatchedFault =>
    rintro - - ⟨⟩
    exact ⟨rfl, nofun⟩
  all_goals intros; contradiction

/-! ### PC after an execute step that returns `Ok` (R76) -/

/-- The address a RET pops, as the table of R76 reads it. -/
theorem pcAfterOk_ret (s : State) : pcAfterOk .ret s = s.stack[s.sp.val - 1] := by
  have hlt : s.sp.val - 1 < s.stack.toList.length := by
    rw [Vector.length_toList]
    omega
  exact (List.getD_eq_getElem _ _ hlt).trans (Vector.getElem_toList hlt)

/-- PC after a skip instruction: the fetch's advance, and one more where the skip is taken. -/
theorem skip_pc (s : State) (c : Prop) [Decidable c] :
    (if c then s.advance.advance else s.advance).pc = if c then s.pc + 4 else s.pc + 2 := by
  split
  · exact BitVec.add_assoc s.pc 2 2
  · rfl

/-- PC after an execute step that returns `Ok` is the one the table of R76 gives. -/
theorem perform_pc_of_ok {i : Instr} {s : State} :
    (perform i s.advance).result = .ok → (perform i s.advance).state.pc = pcAfterOk i s := by
  apply perform_cases s.advance (P := fun i e => e.result = .ok → e.state.pc = pcAfterOk i s)
  case ret => exact fun _ _ => (pcAfterOk_ret s).symm
  case seImm | seReg => exact fun _ _ _ => skip_pc s _
  case sneImm => exact fun _ _ _ => (skip_pc s _).trans (ite_not _ _ _)
  case retEmpty | sys | jpTop | callFull | unmatchedFault => intros; contradiction
  all_goals intros; rfl

/-! ### What an execute step leaves unchanged (R78) -/

/-- No instruction touches memory, I, DT, ST or the policy. -/
theorem perform_sameUntouched (i : Instr) (s : State) : SameUntouched s (perform i s).state := by
  have hsame : ∀ t : State, t.i = s.i → t.dt = s.dt → t.st = s.st → t.mem = s.mem → t.policy = s.policy →
      SameUntouched s t :=
    fun t hi hdt hst hmem hpolicy => ⟨hi, hdt, hst, fun a => by rw [hmem], hpolicy⟩
  apply perform_cases s (P := fun _ e => SameUntouched s e.state)
  case seImm | sneImm | seReg =>
    intros
    split <;> exact hsame _ rfl rfl rfl rfl rfl
  all_goals intros; exact hsame _ rfl rfl rfl rfl rfl

/-- CLS alone touches a pixel. -/
theorem perform_fb {i : Instr} (s : State) : i ≠ .cls → (perform i s).state.fb = s.fb := by
  apply perform_cases s (P := fun i e => i ≠ .cls → e.state.fb = s.fb)
  case cls => exact fun h => absurd rfl h
  case seImm | sneImm | seReg =>
    intros
    split <;> rfl
  all_goals intros; rfl

/-- RET and CALL alone touch SP or a stack slot. -/
theorem perform_stack {i : Instr} (s : State) : i ≠ .ret → (∀ nnn, i ≠ .call nnn) →
    (perform i s).state.sp = s.sp ∧ (perform i s).state.stack = s.stack := by
  apply perform_cases s (P := fun i e => i ≠ .ret → (∀ nnn, i ≠ .call nnn) →
    e.state.sp = s.sp ∧ e.state.stack = s.stack)
  case ret => exact fun _ h _ => absurd rfl h
  case call => exact fun nnn _ _ h => absurd rfl (h nnn)
  case seImm | sneImm | seReg =>
    intros
    split <;> exact ⟨rfl, rfl⟩
  all_goals intros; exact ⟨rfl, rfl⟩

/-- The registers that an instruction's row names as written: the destination, and VF too for 8xy4 (R78). -/
def destRegs : Instr → List Reg
  | .ldImm x _ => [x]
  | .addImm x _ => [x]
  | .ldReg x _ => [x]
  | .orReg x _ => [x]
  | .andReg x _ => [x]
  | .xorReg x _ => [x]
  | .addReg x _ => [x, VF]
  | _ => []

theorem sameRegsBut_writeReg (s : State) (x : Reg) (b : Byte) : SameRegsBut [x] s (s.writeReg x b) :=
  fun _ hr => State.readReg_writeReg_other s (List.ne_of_not_mem_cons hr) b

/-- An instruction writes no register but those its row names. -/
theorem perform_sameRegsBut (i : Instr) (s : State) : SameRegsBut (destRegs i) s (perform i s).state := by
  apply perform_cases s (P := fun i e => SameRegsBut (destRegs i) s e.state)
  case ldImm | addImm | ldReg | orReg | andReg | xorReg => exact fun x _ => sameRegsBut_writeReg s x _
  case addReg =>
    intro x y r hr
    have hrx : r ≠ x := List.ne_of_not_mem_cons hr
    have hrf : r ≠ VF := List.ne_of_not_mem_cons (List.not_mem_of_not_mem_cons hr)
    rw [State.readReg_writeFlag, if_neg hrf, State.readReg_writeReg_other s hrx]
  case seImm | sneImm | seReg =>
    intros
    split <;> exact fun _ _ => rfl
  all_goals intros; exact fun _ _ => rfl

/-- A word outside 6xkk, 7xkk and 8xy0 to 8xy4 decodes to an instruction that names no destination register. -/
theorem destRegs_decodeWord (op : Word) : ¬ writesRegister op → destRegs (decodeWord op) = [] := by
  apply decodeWord_cases op (P := fun i => ¬ writesRegister op → destRegs i = [])
  case ldImm => exact fun h hw => absurd (.inl h) hw
  case addImm => exact fun h hw => absurd (.inr (.inl h)) hw
  case ldReg | orReg | andReg | xorReg | addReg => exact fun h hn hw => absurd (.inr (.inr ⟨h, by omega⟩)) hw
  all_goals intros; rfl

theorem decodeWord_ne_ret {op : Word} (h : op ≠ 0x00EE) : decodeWord op ≠ .ret :=
  fun hret => h ((decodeWord_eq_iff op _).mp hret).2.symm

theorem decodeWord_ne_call {op : Word} (h : op.toNat / 0x1000 ≠ 2) (nnn : Addr12) : decodeWord op ≠ .call nnn := by
  intro hcall
  obtain ⟨-, hword⟩ := (decodeWord_eq_iff op _).mp hcall
  have hop : op.toNat = 2 * 0x1000 + nnn.toNat := by
    rw [← hword]
    exact formatA_toNat 2 nnn
  omega

/-! ### Ticks without a fetch (R77) -/

/-- Where no fetch can succeed, a tick fails and changes nothing. -/
theorem tick_of_ge {s : State} (h : 4095 ≤ s.pc.toNat) : tick s = ⟨s, .error .memoryOutOfBounds⟩ :=
  tick_of_fetch_error (fetch_of_ge h)

theorem ticks_of_ge {s : State} (h : 4095 ≤ s.pc.toNat) (n : Nat) :
    ticks n s = (s, List.replicate n (.result (.error .memoryOutOfBounds))) := by
  induction n with
  | zero => rfl
  | succ n ih => rw [ticks_succ, hostMove_tick, tick_of_ge h, ih, List.replicate_succ]

/-! ### The obligations of 40_cycle.md -/

/-- Settles O21: the fetch is `get16` at PC, which reads two neighbouring bytes as one big-endian word. -/
theorem fetchReadsTheWordOrChangesNothing : Obligations.FetchReadsTheWordOrChangesNothing := by
  refine ⟨fun s h => ⟨fetch_of_ge h, step_of_tick (tick_of_ge h)⟩, fun s h => ?_⟩
  exact ⟨_, fetch_of_lt (by omega), wordOfBytes_toNat _ _⟩

/-- Settles O22: a failed fetch changes nothing, and an execute step that fails leaves the state after the PC
advance. -/
theorem errorLeavesAtMostThePcAdvance : Obligations.ErrorLeavesAtMostThePcAdvance := by
  intro s
  refine ⟨(tick s).state, step_eq_tick s, rfl, ?_⟩
  rcases tick_cases s with ⟨-, -, ht⟩ | ⟨-, op, -, ht⟩
  · rw [ht]
    refine ⟨fun _ => rfl, fun f hf hresult => ?_⟩
    cases hresult
    contradiction
  · rw [ht]
    exact ⟨fun hresult => absurd rfl (perform_of_error hresult).2, fun f _ hresult => (perform_of_error hresult).1⟩

/-- Settles O23: PC is advanced before the execute step, which then follows the table or has written nothing. -/
theorem pcAfterOneTickByOutcome : Obligations.PcAfterOneTickByOutcome := by
  refine ⟨fun s h => ⟨s, (step_of_tick (tick_of_ge h)).1, rfl⟩, fun s op hfetch => ?_⟩
  refine ⟨(tick s).state, step_eq_tick s, ?_⟩
  rw [tick_of_fetch_ok hfetch]
  refine ⟨perform_pc_of_ok, fun f hresult => ?_⟩
  rw [(perform_of_error hresult).1, State.advance_pc]

/-- Settles O24: the PC advance touches none of these elements, and the execute step only those that the decoded
instruction names. -/
theorem tickTouchesOnlyWhatItsOpcodeNames : Obligations.TickTouchesOnlyWhatItsOpcodeNames := by
  intro s
  refine ⟨(tick s).state, step_eq_tick s, ?_⟩
  rcases tick_cases s with ⟨-, -, ht⟩ | ⟨-, op, hfetch, ht⟩
  · rw [ht]
    exact ⟨⟨rfl, rfl, rfl, fun _ => rfl, rfl⟩, fun _ _ _ => rfl, fun _ => ⟨rfl, fun _ _ => rfl⟩, fun _ _ _ => rfl⟩
  · rw [ht]
    refine ⟨perform_sameUntouched _ s.advance, fun h x y => ?_, fun h => ?_, fun h => ?_⟩
    · rw [perform_fb s.advance (mt decodeWord_eq_cls (h op hfetch)), State.advance_fb]
    · obtain ⟨hret, hcall⟩ := h op hfetch
      obtain ⟨hsp, hstack⟩ := perform_stack s.advance (decodeWord_ne_ret hret) (decodeWord_ne_call hcall)
      exact ⟨hsp, fun k hk => by rw [hstack, State.advance_stack]⟩
    · have hregs := perform_sameRegsBut (decodeWord op) s.advance
      rwa [destRegs_decodeWord op (h op hfetch)] at hregs

/-- Settles O26, by induction on the number of ticks. -/
theorem failedFetchIsAFixedPoint : Obligations.FailedFetchIsAFixedPoint := fun n _ h => ticks_of_ge h (n + 1)

/-- Settles O20: the word fetched is that of the two bytes at PC. -/
theorem stepRunsTheDecodedInstruction : Obligations.StepRunsTheDecodedInstruction := by
  intro s i hpc hdecode
  have hfetch := fetch_of_lt (s := s) (by omega)
  have hi : decodeWord (wordOfBytes (s.mem.read s.pc.toNat) (s.mem.read (s.pc.toNat + 1))) = i := by
    simpa [decodeBytes] using hdecode
  rw [step_of_fetch_ok hfetch, tick_of_fetch_ok hfetch, hi]
  exact ⟨rfl, rfl⟩

/-- Settles O51. -/
theorem execAndStepAnswerTheStateLeft : Obligations.ExecAndStepAnswerTheStateLeft := ⟨exec_eq_perform, step_eq_tick⟩

end Sys2Proof.Machine

/-! ## The display and CLS (41_display_cls.md) -/

namespace Sys2Proof.Machine

/-! ### Pixels outside the screen, and a pixel set (R80, R81) -/

/-- Coordinates do not wrap: one out of range is enough for a refusal. -/
theorem Display.getPixel_of_ge (d : Display) {x y : Nat} (h : 64 ≤ x ∨ 32 ≤ y) :
    d.getPixel x y = .error .outOfRange := dif_neg (by omega)

theorem Display.setPixel_of_ge (d : Display) {x y : Nat} (h : 64 ≤ x ∨ 32 ≤ y) (p : Bool) :
    d.setPixel x y p = .error .outOfRange := dif_neg (by omega)

/-- What a write that succeeds leaves at the pixel written. -/
theorem Display.getPixel_of_setPixel_same {d d' : Display} {x y : Nat} (hx : x < 64) (hy : y < 32) {p : Bool}
    (h : d.setPixel x y p = .ok d') : d'.getPixel x y = .ok p := by
  rw [Display.setPixel_of_lt d hx hy] at h
  cases h
  rw [Display.getPixel_of_lt _ hx hy, Vector.getElem_set_self, Vector.getElem_set_self]

/-- A write that succeeds leaves every other pixel: it replaces one row, and in that row one column. -/
theorem Display.getPixel_of_setPixel_other {d d' : Display} {x y x' y' : Nat} (hx : x < 64) (hy : y < 32) {p : Bool}
    (h : d.setPixel x y p = .ok d') (hne : (x', y') ≠ (x, y)) : d'.getPixel x' y' = d.getPixel x' y' := by
  rw [Display.setPixel_of_lt d hx hy] at h
  cases h
  by_cases hout : 64 ≤ x' ∨ 32 ≤ y'
  · rw [Display.getPixel_of_ge _ hout, Display.getPixel_of_ge _ hout]
  · have hx' : x' < 64 := by omega
    have hy' : y' < 32 := by omega
    rw [Display.getPixel_of_lt _ hx' hy', Display.getPixel_of_lt _ hx' hy']
    by_cases hrow : y = y'
    · subst hrow
      have hcol : x ≠ x' := fun hxx => hne (by rw [hxx])
      rw [Vector.getElem_set_self, Vector.getElem_set_ne _ _ hcol]
    · rw [Vector.getElem_set_ne _ _ hrow]

/-! ### The obligations of 41_display_cls.md -/

/-- Settles O45: a refusal outside the screen; inside it, one column of one row is replaced. -/
theorem setPixelWritesExactlyOnePixel : Obligations.SetPixelWritesExactlyOnePixel := by
  intro d x y p
  refine ⟨fun h => ⟨Display.setPixel_of_ge d h p, Display.getPixel_of_ge d h⟩, fun hx hy => ?_⟩
  have hset := Display.setPixel_of_lt d hx hy p
  exact ⟨_, hset, Display.getPixel_of_setPixel_same hx hy hset,
    fun _ _ => Display.getPixel_of_setPixel_other hx hy hset⟩

/-- Settles O6: the state left is the one with the display cleared; the frame is what R78 says of CLS. -/
theorem clsClearsEveryPixel : Obligations.ClsClearsEveryPixel := by
  refine ⟨fun op => ⟨decodeWord_eq_cls, fun h => h ▸ rfl⟩, fun s => ?_⟩
  refine ⟨(perform .cls s).state, exec_eq_perform .cls s, ?_⟩
  obtain ⟨hsp, hstack⟩ := perform_stack (i := .cls) s (by simp) (by simp)
  exact ⟨rfl, rfl, fun _ _ => Display.getPixel_clear s.fb, perform_sameRegsBut .cls s,
    ⟨hsp, fun _ _ => by rw [hstack]⟩, perform_sameUntouched .cls s⟩

/-- Settles O46: the move is the display's `clear`, and every other field is carried over. -/
theorem hostClearMakesEveryPixelFalse : Obligations.HostClearMakesEveryPixelFalse :=
  fun s => ⟨s.clearDisplay, rfl, fun _ _ => Display.getPixel_clear s.fb, rfl⟩

end Sys2Proof.Machine

/-! ## Control flow: RET, SYS, JP and CALL (42_control_flow.md) -/

namespace Sys2Proof.Machine

open Sys2Proof.Laws Sys2Proof.Machine.Claims

/-! ### The words of RET, SYS and CALL (R90, R91, R93) -/

theorem decodeWord_eq_ret_iff (op : Word) : decodeWord op = .ret ↔ op = 0x00EE := by
  rw [decodeWord_eq_iff, eq_comm (a := op)]
  exact and_iff_right rfl

/-- SYS is told by its number, which is its address, once the words of CLS and RET are left out. -/
theorem decodeWord_eq_sys_iff (op : Word) (nnn : Addr12) :
    decodeWord op = .sys nnn ↔ op.toNat = nnn.toNat ∧ op ≠ 0x00E0 ∧ op ≠ 0x00EE := by
  have hword : formatA 0 nnn = op ↔ op.toNat = nnn.toNat := by
    rw [← BitVec.toNat_inj, formatA_toNat, eq_comm]
    simp
  have hcls : op.toNat = nnn.toNat → (nnn ≠ 0x0E0 ↔ op ≠ 0x00E0) := by bv_omega
  have hret : op.toNat = nnn.toNat → (nnn ≠ 0x0EE ↔ op ≠ 0x00EE) := by bv_omega
  rw [decodeWord_eq_iff, wf_sys_iff, encodeWord, hword, and_comm]
  exact and_congr_right fun h => and_congr (hcls h) (hret h)

theorem decodeWord_eq_call_iff (op : Word) (nnn : Addr12) :
    decodeWord op = .call nnn ↔ op.toNat = 0x2000 + nnn.toNat := by
  have hword : (encodeWord (.call nnn)).toNat = 0x2000 + nnn.toNat := formatA_toNat 2 nnn
  rw [decodeWord_eq_iff, ← BitVec.toNat_inj, hword, eq_comm (a := op.toNat)]
  exact and_iff_right rfl

/-! ### The two frames, from what the execute step leaves unchanged (R78) -/

theorem perform_writesOnlyStack {i : Instr} (s : State) (hregs : destRegs i = []) (hcls : i ≠ .cls) :
    WritesOnlyStack s (perform i s).state :=
  ⟨hregs ▸ perform_sameRegsBut i s, fun _ _ => by rw [perform_fb s hcls], perform_sameUntouched i s⟩

theorem perform_writesOnlyRegs {i : Instr} (s : State) (hcls : i ≠ .cls) (hret : i ≠ .ret)
    (hcall : ∀ nnn, i ≠ .call nnn) : WritesOnlyRegs (destRegs i) s (perform i s).state := by
  obtain ⟨hsp, hstack⟩ := perform_stack s hret hcall
  exact ⟨perform_sameRegsBut i s, ⟨hsp, fun _ _ => by rw [hstack]⟩, fun _ _ => by rw [perform_fb s hcls],
    perform_sameUntouched i s⟩

/-! ### The entry a RET pops, and a target that cannot be fetched (R90, R95) -/

/-- RET with `k + 1` entries, said by `k`. -/
theorem perform_ret_succ {s : State} {k : Nat} (hk : k < 16) (hsp : s.sp.val = k + 1) :
    perform .ret s = ⟨(s.withStack s.stack ⟨k, by omega⟩).setPc s.stack[k], .ok⟩ := by
  obtain rfl : k = s.sp.val - 1 := by omega
  exact perform_ret s (by omega)

/-- A tick that succeeds with PC where nothing can be fetched: the next tick reports it, and stands still. -/
theorem tick_to_bad_target {s t : State} {op w : Word} (hfetch : fetch s = .ok op)
    (hperform : perform (decodeWord op) s.advance = ⟨t, .ok⟩) (hpc : t.pc = w) (hw : 0xFFF ≤ w.toNat) :
    ∃ u, step s = .next u ∧ (tick s).result = .ok ∧ u.pc = w ∧
      step u = .next u ∧ (tick u).result = .error .memoryOutOfBounds := by
  obtain ⟨hstep, hresult⟩ := step_of_tick ((tick_of_fetch_ok hfetch).trans hperform)
  exact ⟨t, hstep, hresult, hpc, step_of_tick (tick_of_ge (hpc ▸ hw))⟩

/-! ### The obligations of 42_control_flow.md -/

/-- Settles O7: the pop moves SP and PC and writes no slot. -/
theorem retPopsTheReturnAddress : Obligations.RetPopsTheReturnAddress := by
  refine ⟨decodeWord_eq_ret_iff, fun s hsp => exec_of_perform (perform_ret_empty s hsp), fun s k hk hsp => ?_⟩
  refine ⟨(perform .ret s).state, exec_eq_perform .ret s, ?_⟩
  have hframe : WritesOnlyStack s (perform .ret s).state := perform_writesOnlyStack s rfl (by simp)
  rw [perform_ret_succ hk hsp] at hframe ⊢
  exact ⟨rfl, rfl, rfl, fun _ _ => rfl, hframe⟩

/-- Settles O8: the execute step looks at neither the address nor the state. -/
theorem sysAlwaysFailsNotImplemented : Obligations.SysAlwaysFailsNotImplemented :=
  ⟨decodeWord_eq_sys_iff, fun nnn s => exec_of_perform (perform_sys s nnn)⟩

/-- Settles O9: 0xFFF is the one 12-bit target above 0xFFE. -/
theorem jpSetsPcOrRejectsTheTopAddress : Obligations.JpSetsPcOrRejectsTheTopAddress := by
  refine ⟨decodeWord_eq_jp_iff, fun nnn s hnnn => ?_, fun nnn s hnnn => ?_⟩
  · refine ⟨(perform (.jp nnn) s).state, exec_eq_perform (.jp nnn) s, ?_⟩
    have hframe : WritesOnlyRegs [] s (perform (.jp nnn) s).state :=
      perform_writesOnlyRegs (i := .jp nnn) s (by simp) (by simp) (by simp)
    rw [perform_jp s hnnn] at hframe ⊢
    exact ⟨rfl, addrOperand_toNat nnn, hframe⟩
  · exact exec_of_perform (perform_jp_top s (by omega))

/-- Settles O10: the push writes the one slot at SP, with the PC that execute finds. -/
theorem callPushesThePostFetchPc : Obligations.CallPushesThePostFetchPc := by
  refine ⟨decodeWord_eq_call_iff, fun nnn s hsp => exec_of_perform (perform_call_full s nnn hsp), ?_⟩
  rintro nnn s _ hk rfl
  refine ⟨(perform (.call nnn) s).state, exec_eq_perform (.call nnn) s, ?_⟩
  have hframe : WritesOnlyStack s (perform (.call nnn) s).state := perform_writesOnlyStack s rfl (by simp)
  rw [perform_call s nnn hk] at hframe ⊢
  exact ⟨rfl, Vector.getElem_set_self _, rfl, addrOperand_toNat nnn,
    fun j hj hne => Vector.getElem_set_ne hk hj hne.symm, hframe⟩

/-- Settles O27: neither CALL nor RET checks its target; the fetch of the next tick does. -/
theorem badTargetIsReportedOneTickLater : Obligations.BadTargetIsReportedOneTickLater := by
  refine ⟨fun s hfetch hsp => ?_, fun s k hk hfetch hsp htarget => ?_⟩
  · have hdecode : decodeWord 0x2FFF = .call 0xFFF := rfl
    exact tick_to_bad_target hfetch (hdecode ▸ perform_call s.advance 0xFFF hsp) rfl (by decide)
  · have hdecode : decodeWord 0x00EE = .ret := rfl
    exact tick_to_bad_target hfetch (hdecode ▸ perform_ret_succ (s := s.advance) hk hsp) rfl htarget

/-- Settles O29: RET reads only SP and the slot below it, which the CALL wrote. -/
theorem retUndoesCall : Obligations.RetUndoesCall := by
  intro nnn s t u hroom hcall hsp hstack
  obtain ⟨hexec, -⟩ := exec_of_perform (perform_call s nnn hroom)
  obtain rfl := Host.Outcome.next.inj (hcall.symm.trans hexec)
  have hsp' : u.sp.val = s.sp.val + 1 := congrArg Fin.val hsp
  have hstack' : u.stack = s.stack.set s.sp.val s.pc := hstack
  obtain ⟨hret, hok⟩ := exec_of_perform (perform_ret_succ hroom hsp')
  refine ⟨_, hret, hok, ?_, rfl, fun j hj hne => ?_⟩
  · rw [State.setPc_pc, hstack', Vector.getElem_set_self]
  · rw [State.setPc_stack, State.withStack_stack, hstack', Vector.getElem_set_ne _ _ hne.symm]

end Sys2Proof.Machine

/-! ## The conditional skips: SE and SNE (43_skips.md) -/

namespace Sys2Proof.Machine

open Sys2Proof.Laws Sys2Proof.Machine.Claims

/-! ### The words of format I and R, and of the skips (R51, R54) -/

/-- A format I word told by its number. -/
theorem formatI_eq_iff (m : Nibble) (x : Reg) (kk : Byte) (op : Word) :
    formatI m x kk = op ↔ op.toNat = m.toNat * 0x1000 + 0x100 * x.val + kk.toNat := by
  rw [← BitVec.toNat_inj, formatI_toNat, eq_comm, Nat.mul_comm 0x100]

/-- A format R word told by its number. -/
theorem formatR_eq_iff (m : Nibble) (x y : Reg) (n : Nibble) (op : Word) :
    formatR m x y n = op ↔ op.toNat = m.toNat * 0x1000 + 0x100 * x.val + 0x10 * y.val + n.toNat := by
  rw [← BitVec.toNat_inj, formatR_toNat, eq_comm, Nat.mul_comm 0x100, Nat.mul_comm 0x10]

theorem decodeWord_eq_seImm_iff (op : Word) (x : Reg) (kk : Byte) :
    decodeWord op = .seImm x kk ↔ op.toNat = 0x3000 + 0x100 * x.val + kk.toNat := by
  rw [decodeWord_eq_iff, encodeWord, formatI_eq_iff]
  exact and_iff_right rfl

theorem decodeWord_eq_sneImm_iff (op : Word) (x : Reg) (kk : Byte) :
    decodeWord op = .sneImm x kk ↔ op.toNat = 0x4000 + 0x100 * x.val + kk.toNat := by
  rw [decodeWord_eq_iff, encodeWord, formatI_eq_iff]
  exact and_iff_right rfl

theorem decodeWord_eq_seReg_iff (op : Word) (x y : Reg) :
    decodeWord op = .seReg x y ↔ op.toNat = 0x5000 + 0x100 * x.val + 0x10 * y.val := by
  rw [decodeWord_eq_iff, encodeWord, formatR_eq_iff]
  exact and_iff_right rfl

/-! ### What a skip does: one description for the three instructions (R100 to R102) -/

/-- Executing `i` returns `Ok`, adds 2 to PC when `c` holds and leaves PC otherwise, and writes nothing else. -/
def SkipsWhen (i : Instr) (c : Prop) (s : State) : Prop :=
  ∃ t, exec i s = .next t ∧ (perform i s).result = .ok ∧
    (c → t.pc = s.pc + 2) ∧ (¬ c → t.pc = s.pc) ∧ WritesOnlyRegs [] s t

/-- An instruction skips when its execute step is the conditional PC advance. -/
theorem skipsWhen_of_perform {i : Instr} {s : State} {c : Prop} [Decidable c]
    (hskip : perform i s = ⟨if c then s.advance else s, .ok⟩)
    (hframe : WritesOnlyRegs [] s (perform i s).state) : SkipsWhen i c s := by
  rw [hskip] at hframe
  obtain ⟨hexec, hok⟩ := exec_of_perform hskip
  exact ⟨_, hexec, hok, fun h => by rw [if_pos h, State.advance_pc], fun h => by rw [if_neg h], hframe⟩

/-- The two branches, of a state already known to be the one answered. -/
theorem SkipsWhen.pc {i : Instr} {s t : State} {c : Prop} (h : SkipsWhen i c s) (hexec : exec i s = .next t) :
    (c → t.pc = s.pc + 2) ∧ (¬ c → t.pc = s.pc) := by
  obtain ⟨u, hu, -, htaken, hnot, -⟩ := h
  obtain rfl := Host.Outcome.next.inj (hexec.symm.trans hu)
  exact ⟨htaken, hnot⟩

theorem seImm_skipsWhen (x : Reg) (kk : Byte) (s : State) : SkipsWhen (.seImm x kk) (s.readReg x = kk) s :=
  skipsWhen_of_perform (perform_seImm s x kk)
    (perform_writesOnlyRegs (i := .seImm x kk) s (by simp) (by simp) (by simp))

theorem sneImm_skipsWhen (x : Reg) (kk : Byte) (s : State) : SkipsWhen (.sneImm x kk) (s.readReg x ≠ kk) s :=
  skipsWhen_of_perform (perform_sneImm s x kk)
    (perform_writesOnlyRegs (i := .sneImm x kk) s (by simp) (by simp) (by simp))

theorem seReg_skipsWhen (x y : Reg) (s : State) : SkipsWhen (.seReg x y) (s.readReg x = s.readReg y) s :=
  skipsWhen_of_perform (perform_seReg s x y)
    (perform_writesOnlyRegs (i := .seReg x y) s (by simp) (by simp) (by simp))

/-! ### The obligations of 43_skips.md -/

/-- Settles O11: the execute step is the PC advance under the condition that the register holds the byte. -/
theorem seImmSkipsWhenEqual : Obligations.SeImmSkipsWhenEqual := ⟨decodeWord_eq_seImm_iff, seImm_skipsWhen⟩

/-- Settles O12: the condition is the negation of that of SE, so whichever way the comparison falls one of the two
takes its skip and the other does not. -/
theorem sneImmSkipsWhenDifferent : Obligations.SneImmSkipsWhenDifferent := by
  refine ⟨decodeWord_eq_sneImm_iff, fun x kk s => ?_, fun x kk s t u ht hu => ?_⟩
  · obtain ⟨t, hexec, hok, htaken, hnot, hframe⟩ := sneImm_skipsWhen x kk s
    exact ⟨t, hexec, hok, htaken, fun h => hnot (not_not_intro h), hframe⟩
  · obtain ⟨hse, hseNot⟩ := (seImm_skipsWhen x kk s).pc ht
    obtain ⟨hsne, hsneNot⟩ := (sneImm_skipsWhen x kk s).pc hu
    by_cases h : s.readReg x = kk
    · exact .inl ⟨hse h, hsneNot (not_not_intro h)⟩
    · exact .inr ⟨hseNot h, hsne h⟩

/-- Settles O13: a register equals itself, so with `x = y` the condition always holds. -/
theorem seRegSkipsWhenEqual : Obligations.SeRegSkipsWhenEqual :=
  ⟨decodeWord_eq_seReg_iff, seReg_skipsWhen, fun x s _ hexec => ((seReg_skipsWhen x x s).pc hexec).1 rfl⟩

end Sys2Proof.Machine

/-! ## The register-immediate instructions (44_immediate.md) -/

namespace Sys2Proof.Machine

open Sys2Proof.Laws Sys2Proof.Machine.Claims

/-! ### The word of LD Vx,kk (R54, R110) -/

theorem decodeWord_eq_ldImm_iff (op : Word) (x : Reg) (kk : Byte) :
    decodeWord op = .ldImm x kk ↔ op.toNat = 0x6000 + 0x100 * x.val + kk.toNat := by
  rw [decodeWord_eq_iff, encodeWord, formatI_eq_iff]
  exact and_iff_right rfl

/-! ### What an instruction that writes one register does -/

/-- A register write leaves everything but that register. -/
theorem writesOnlyRegs_writeReg (s : State) (x : Reg) (b : Byte) : WritesOnlyRegs [x] s (s.writeReg x b) :=
  ⟨sameRegsBut_writeReg s x b, ⟨rfl, fun _ _ => rfl⟩, fun _ _ => rfl, ⟨rfl, rfl, rfl, fun _ => rfl, rfl⟩⟩

/-- When the execute step of an instruction is one register write: its completion, its effect and its frame. -/
theorem exec_of_perform_writeReg {i : Instr} {s : State} {x : Reg} {b : Byte}
    (h : perform i s = ⟨s.writeReg x b, .ok⟩) :
    ∃ t, exec i s = .next t ∧ (perform i s).result = .ok ∧
      t.readReg x = b ∧ t.pc = s.pc ∧ WritesOnlyRegs [x] s t := by
  obtain ⟨hexec, hok⟩ := exec_of_perform h
  exact ⟨_, hexec, hok, State.readReg_writeReg_same s x b, State.writeReg_pc s x b, writesOnlyRegs_writeReg s x b⟩

/-! ### The obligation of 44_immediate.md -/

/-- Settles O14: the execute step is the write of `kk` to the register, whichever register it is and whatever it
held. -/
theorem ldImmLoadsTheByte : Obligations.LdImmLoadsTheByte :=
  ⟨decodeWord_eq_ldImm_iff, fun x kk s => exec_of_perform_writeReg (perform_ldImm s x kk)⟩

end Sys2Proof.Machine

/-! ## The register-register instructions: LD, OR, AND and XOR (45_alu.md) -/

namespace Sys2Proof.Machine

open Sys2Proof.Laws Sys2Proof.Machine.Claims

/-! ### The words 8xyn (R54, R120 to R123) -/

/-- A well-formed instruction whose word is format R under top nibble 8 is told by that word's number. -/
theorem decodeWord_eq_iff_of_group8 {i : Instr} {x y : Reg} {n : Nibble} (hwf : i.wf = true)
    (hword : encodeWord i = formatR 8 x y n) (op : Word) :
    decodeWord op = i ↔ op.toNat = 0x8000 + n.toNat + 0x100 * x.val + 0x10 * y.val := by
  have hmajor : (8 : Nibble).toNat = 8 := rfl
  rw [decodeWord_eq_iff, hword, formatR_eq_iff, hmajor, and_iff_right hwf]
  constructor <;> omega

theorem decodeWord_eq_ldReg_iff (op : Word) (x y : Reg) :
    decodeWord op = .ldReg x y ↔ op.toNat = 0x8000 + 0x100 * x.val + 0x10 * y.val :=
  decodeWord_eq_iff_of_group8 (n := 0) rfl rfl op

theorem decodeWord_eq_orReg_iff (op : Word) (x y : Reg) :
    decodeWord op = .orReg x y ↔ op.toNat = 0x8001 + 0x100 * x.val + 0x10 * y.val :=
  decodeWord_eq_iff_of_group8 (n := 1) rfl rfl op

theorem decodeWord_eq_andReg_iff (op : Word) (x y : Reg) :
    decodeWord op = .andReg x y ↔ op.toNat = 0x8002 + 0x100 * x.val + 0x10 * y.val :=
  decodeWord_eq_iff_of_group8 (n := 2) rfl rfl op

theorem decodeWord_eq_xorReg_iff (op : Word) (x y : Reg) :
    decodeWord op = .xorReg x y ↔ op.toNat = 0x8003 + 0x100 * x.val + 0x10 * y.val :=
  decodeWord_eq_iff_of_group8 (n := 3) rfl rfl op

/-! ### The effect of a copy and of a bitwise operation -/

/-- Copying a register leaves the source as it was, the destination too when they are one register (R120). -/
theorem readReg_source_of_copy (s : State) (x y : Reg) : (s.writeReg x (s.readReg y)).readReg y = s.readReg y := by
  by_cases hyx : y = x
  · rw [hyx, State.readReg_writeReg_same]
  · exact State.readReg_writeReg_other s hyx _

/-- When the execute step writes `op (V[x], V[y])` to `V[x]` and `op` acts bit by bit as `bit`: its completion, its
frame and each bit it leaves. -/
theorem exec_of_perform_bitwise {i : Instr} {s : State} {x y : Reg}
    {op : Byte → Byte → Byte} {bit : Bool → Bool → Bool}
    (h : perform i s = ⟨s.writeReg x (op (s.readReg x) (s.readReg y)), .ok⟩)
    (hbit : ∀ (a b : Byte) (k : Nat), (op a b).getLsbD k = bit (a.getLsbD k) (b.getLsbD k)) :
    ∃ t, exec i s = .next t ∧ (perform i s).result = .ok ∧ t.pc = s.pc ∧ WritesOnlyRegs [x] s t ∧
      ∀ k < 8, (t.readReg x).getLsbD k = bit ((s.readReg x).getLsbD k) ((s.readReg y).getLsbD k) := by
  obtain ⟨t, hexec, hok, hx, hpc, hframe⟩ := exec_of_perform_writeReg h
  exact ⟨t, hexec, hok, hpc, hframe, fun k _ => by rw [hx, hbit]⟩

/-! ### The obligations of 45_alu.md -/

/-- Settles O16: the execute step is the write of the old `V[y]` to `V[x]`, so `V[y]` stays whether or not `x` is
`y`. -/
theorem ldRegCopiesTheRegister : Obligations.LdRegCopiesTheRegister := by
  refine ⟨decodeWord_eq_ldReg_iff, fun x y s => ?_⟩
  obtain ⟨hexec, hok⟩ := exec_of_perform (perform_ldReg s x y)
  exact ⟨_, hexec, hok, State.readReg_writeReg_same s x _, readReg_source_of_copy s x y, State.writeReg_pc s x _,
    writesOnlyRegs_writeReg s x _⟩

/-- Settles O17: each execute step is one write to `V[x]`, of a word operation that acts on the bits one by one. -/
theorem bitwiseOpsActOnEachBit : Obligations.BitwiseOpsActOnEachBit :=
  ⟨fun op x y => ⟨decodeWord_eq_orReg_iff op x y, decodeWord_eq_andReg_iff op x y, decodeWord_eq_xorReg_iff op x y⟩,
    fun x y s =>
      ⟨exec_of_perform_bitwise (perform_orReg s x y) fun _ _ _ => BitVec.getLsbD_or,
        exec_of_perform_bitwise (perform_andReg s x y) fun _ _ _ => BitVec.getLsbD_and,
        exec_of_perform_bitwise (perform_xorReg s x y) fun _ _ _ => BitVec.getLsbD_xor⟩⟩

end Sys2Proof.Machine

/-! ## What the policy decides (46_unmatched.md) -/

namespace Sys2Proof.Machine

open Sys2Proof.Laws

variable (s : State)

/-- The state with its UNKNOWN_OPCODE_POLICY replaced (D1, log entry 2). -/
def State.withPolicy (s : State) (p : UnknownOpcodePolicy) : State := { s with policy := p }

theorem State.readReg_withPolicy (p : UnknownOpcodePolicy) (r : Reg) :
    (s.withPolicy p).readReg r = s.readReg r := (rfl)

/-- A conditional PC advance leaves the policy and does not look at it. -/
theorem State.skip_withPolicy (p : UnknownOpcodePolicy) (c : Prop) [Decidable c] :
    (if c then (s.withPolicy p).advance else s.withPolicy p) = (if c then s.advance else s).withPolicy p :=
  (apply_ite (·.withPolicy p) c s.advance s).symm

/-- An unmatched opcode writes nothing, under either policy (R130). -/
theorem perform_unmatched_state (op : Word) : (perform (.unmatched op) s).state = s := by
  cases h : s.policy with
  | fault => rw [perform_unmatched_fault s op h]
  | noop => rw [perform_unmatched_noop s op h]

/-- The execute step of an instruction of the table neither sees nor writes the policy. -/
theorem perform_withPolicy (p : UnknownOpcodePolicy) (i : Instr) : WordClass.isDefault i = false →
    perform i (s.withPolicy p) = ⟨(perform i s).state.withPolicy p, (perform i s).result⟩ := by
  apply perform_cases s (P := fun i e => WordClass.isDefault i = false →
    perform i (s.withPolicy p) = ⟨e.state.withPolicy p, e.result⟩)
  case retEmpty => exact fun hsp _ => perform_ret_empty _ hsp
  case ret => exact fun hsp _ => perform_ret (s.withPolicy p) hsp
  case jp => exact fun _ hn _ => perform_jp _ hn
  case jpTop => exact fun _ hn _ => perform_jp_top _ hn
  case callFull => exact fun nnn hsp _ => perform_call_full _ nnn hsp
  case call => exact fun nnn hsp _ => perform_call (s.withPolicy p) nnn hsp
  case seImm | sneImm | seReg =>
    intro _ _ _
    simp only [perform_seImm, perform_sneImm, perform_seReg, State.readReg_withPolicy, State.skip_withPolicy]
  case unmatchedFault | unmatchedNoop => exact fun _ _ h => Bool.noConfusion h
  all_goals intros; rfl

/-- Neither the fetch nor a row of the table looks at the policy, and the default row, which does, writes nothing: what
a tick returns for an unmatched word is all that the policy can change (R130). -/
theorem tick_withPolicy (p : UnknownOpcodePolicy) :
    (tick (s.withPolicy p)).state = (tick s).state.withPolicy p ∧
      ((∀ op, fetch s = .ok op → unmatchedWord op = false) → (tick (s.withPolicy p)).result = (tick s).result) := by
  rcases tick_cases s with ⟨-, hfetch, ht⟩ | ⟨-, op, hfetch, ht⟩
  · rw [ht, tick_of_fetch_error (s := s.withPolicy p) hfetch]
    exact ⟨rfl, fun _ => rfl⟩
  · have htp : tick (s.withPolicy p) = perform (decodeWord op) (s.advance.withPolicy p) := tick_of_fetch_ok hfetch
    rw [ht, htp]
    cases hop : unmatchedWord op with
    | true =>
      rw [decodeWord_of_unmatched hop, perform_unmatched_state, perform_unmatched_state]
      exact ⟨rfl, fun hmatched => absurd (hmatched op hfetch) (by simp [hop])⟩
    | false =>
      rw [perform_withPolicy _ p _ ((isDefault_decodeWord op).trans hop)]
      exact ⟨rfl, fun _ => rfl⟩

/-! ### The obligation of 46_unmatched.md -/

/-- Settles O30: the default row alone looks at the policy, and it leaves the same state under either. -/
theorem policyDecidesOnlyTheResult : Obligations.PolicyDecidesOnlyTheResult := by
  intro s p
  obtain ⟨hstate, hresult⟩ := tick_withPolicy s p
  exact ⟨(tick s).state, step_eq_tick s, (step_eq_tick _).trans (congrArg Host.Outcome.next hstate), hresult⟩

end Sys2Proof.Machine

/-! ## The six errors, the timer tick and the observation (60_exceptions.md) -/

namespace Sys2Proof.Machine

open Sys2Proof.Laws

section

variable (s : State)

/-! ### When an execute step returns an error (R140) -/

/-- The rows of R140 that the execute step can meet, said of the decoded instruction. `MemoryOutOfBounds` is the fetch's
own. -/
def Raises (f : Fault) (i : Instr) (s : State) : Prop :=
  match f with
  | .memoryOutOfBounds => False
  | .stackOverflow => (∃ nnn, i = .call nnn) ∧ s.sp.val = 16
  | .stackUnderflow => i = .ret ∧ s.sp.val = 0
  | .invalidJumpTarget => ∃ nnn, i = .jp nnn ∧ nnn.toNat > 0xFFE
  | .notImplemented => ∃ nnn, i = .sys nnn
  | .unknownOpcode => WordClass.isDefault i = true ∧ s.policy = .fault

theorem raises_of_perform {f : Fault} {i : Instr} : (perform i s).result = .error f → Raises f i s := by
  apply perform_cases s (P := fun i e => e.result = .error f → Raises f i s)
  case retEmpty =>
    rintro hsp ⟨⟩
    exact ⟨rfl, hsp⟩
  case sys =>
    rintro nnn ⟨⟩
    exact ⟨nnn, rfl⟩
  case jpTop =>
    rintro nnn htop ⟨⟩
    exact ⟨nnn, rfl, htop⟩
  case callFull =>
    rintro nnn hsp ⟨⟩
    exact ⟨⟨nnn, rfl⟩, hsp⟩
  case unmatchedFault =>
    rintro op hpolicy ⟨⟩
    exact ⟨rfl, hpolicy⟩
  all_goals intros; contradiction

theorem perform_of_raises {f : Fault} {i : Instr} (h : Raises f i s) : perform i s = ⟨s, .error f⟩ := by
  cases f with
  | memoryOutOfBounds => exact h.elim
  | stackOverflow =>
    obtain ⟨⟨nnn, rfl⟩, hsp⟩ := h
    exact perform_call_full s nnn hsp
  | stackUnderflow =>
    obtain ⟨rfl, hsp⟩ := h
    exact perform_ret_empty s hsp
  | invalidJumpTarget =>
    obtain ⟨nnn, rfl, htop⟩ := h
    exact perform_jp_top s htop
  | notImplemented =>
    obtain ⟨nnn, rfl⟩ := h
    exact perform_sys s nnn
  | unknownOpcode =>
    obtain ⟨hdefault, hpolicy⟩ := h
    rw [eq_unmatched_of_isDefault hdefault]
    exact perform_unmatched_fault s _ hpolicy

theorem perform_error_iff (f : Fault) (i : Instr) : (perform i s).result = .error f ↔ Raises f i s :=
  ⟨raises_of_perform s, fun h => by rw [perform_of_raises s h]⟩

/-! ### When a tick returns an error (R74) -/

/-- The fetch alone returns `MemoryOutOfBounds`. -/
theorem tick_outOfBounds_iff : (tick s).result = .error .memoryOutOfBounds ↔ 0xFFF ≤ s.pc.toNat := by
  rcases tick_cases s with ⟨hpc, -, ht⟩ | ⟨hpc, op, -, ht⟩
  · rw [ht]
    exact iff_of_true rfl hpc
  · rw [ht, perform_error_iff]
    exact iff_of_false not_false (Nat.not_le.mpr hpc)

/-- Every other error is the execute step's, so it comes after a fetch; the PC advance between them changes nothing that
a row of R140 looks at. -/
theorem tick_error_iff {f : Fault} (hf : f ≠ .memoryOutOfBounds) :
    (tick s).result = .error f ↔ ∃ op, fetch s = .ok op ∧ Raises f (decodeWord op) s := by
  rcases tick_cases s with ⟨-, hfetch, ht⟩ | ⟨-, op, hfetch, ht⟩
  · simp [ht, hfetch, hf.symm]
  · have hadvance : Raises f (decodeWord op) s.advance ↔ Raises f (decodeWord op) s := by cases f <;> rfl
    simp [ht, hfetch, perform_error_iff, hadvance]

end

/-! ### The words of the rows (R54, R140) -/

theorem exists_decodeWord_eq_call_iff (op : Word) : (∃ nnn, decodeWord op = .call nnn) ↔ op.toNat / 0x1000 = 2 := by
  simp only [decodeWord_eq_call_iff]
  refine ⟨fun ⟨nnn, h⟩ => by omega, fun h => ⟨fieldNNN op, ?_⟩⟩
  rw [fieldNNN_toNat]
  omega

theorem exists_decodeWord_eq_sys_iff (op : Word) :
    (∃ nnn, decodeWord op = .sys nnn) ↔ op.toNat / 0x1000 = 0 ∧ op ≠ 0x00E0 ∧ op ≠ 0x00EE := by
  simp only [decodeWord_eq_sys_iff, exists_and_right]
  refine and_congr_left fun _ => ⟨fun ⟨nnn, h⟩ => by omega, fun h => ⟨fieldNNN op, ?_⟩⟩
  rw [fieldNNN_toNat]
  omega

/-- 0xFFF is the one address above 0xFFE that a JP can hold. -/
theorem exists_decodeWord_eq_jp_top_iff (op : Word) :
    (∃ nnn, decodeWord op = .jp nnn ∧ nnn.toNat > 0xFFE) ↔ op = 0x1FFF := by
  simp only [decodeWord_eq_jp_iff]
  constructor
  · rintro ⟨nnn, hword, htop⟩
    bv_omega
  · rintro rfl
    exact ⟨0xFFF, rfl, by decide⟩

/-! ### The obligations of 60_exceptions.md -/

/-- Settles O25: each error has one source, the fetch or the execute step of one instruction, and the decoder says which
words are that instruction's. -/
theorem eachErrorComesExactlyWhenItsRowSays : Obligations.EachErrorComesExactlyWhenItsRowSays := by
  intro s
  refine ⟨tick_outOfBounds_iff s, ?_, ?_, ?_, ?_, ?_⟩
  · simp only [tick_error_iff s (f := .stackOverflow) nofun, Raises, exists_decodeWord_eq_call_iff]
  · simp [tick_error_iff s (f := .stackUnderflow) nofun, Raises, decodeWord_eq_ret_iff]
  · simp only [tick_error_iff s (f := .invalidJumpTarget) nofun, Raises, exists_decodeWord_eq_jp_top_iff,
      exists_eq_right]
  · simp only [tick_error_iff s (f := .notImplemented) nofun, Raises, exists_decodeWord_eq_sys_iff]
  · simp only [tick_error_iff s (f := .unknownOpcode) nofun, Raises, isDefault_decodeWord]

/-- Settles O48: the move counts each timer down on its own, and every other field is carried over. -/
theorem hostTimerTickStopsAtZero : Obligations.HostTimerTickStopsAtZero :=
  fun s => ⟨hostTimerTick s, rfl, countDown_toNat s.dt, countDown_toNat s.st, rfl⟩

/-- Settles O52: the reply is the registers of the state, which the move hands back. -/
theorem observationReadsEveryRegister : Obligations.ObservationReadsEveryRegister :=
  fun s => ⟨s.registers, rfl, fun _ => rfl, rfl, rfl, fun _ _ => rfl, rfl, rfl, rfl⟩

end Sys2Proof.Machine

/-! ## The additions and the default row (44_immediate.md R111, 45_alu.md R124, 46_unmatched.md R130) -/

namespace Sys2Proof.Machine

open Sys2Proof.Laws Sys2Proof.Machine.Claims

/-! ### Their words (R54, R56) -/

theorem decodeWord_eq_addImm_iff (op : Word) (x : Reg) (kk : Byte) :
    decodeWord op = .addImm x kk ↔ op.toNat = 0x7000 + 0x100 * x.val + kk.toNat := by
  rw [decodeWord_eq_iff, encodeWord, formatI_eq_iff]
  exact and_iff_right rfl

theorem decodeWord_eq_addReg_iff (op : Word) (x y : Reg) :
    decodeWord op = .addReg x y ↔ op.toNat = 0x8004 + 0x100 * x.val + 0x10 * y.val :=
  decodeWord_eq_iff_of_group8 (n := 4) rfl rfl op

/-- The default row holds the word decoded, whichever word it is asked to hold. -/
theorem decodeWord_eq_unmatched_iff_eq (op op' : Word) :
    decodeWord op = .unmatched op' ↔ op' = op ∧ unmatchedWord op = true := by
  constructor
  · intro h
    obtain ⟨hwf, rfl⟩ := (decodeWord_eq_iff op _).mp h
    exact ⟨rfl, hwf⟩
  · rintro ⟨rfl, h⟩
    exact decodeWord_of_unmatched h

/-! ### The sum and the carry (R124) -/

/-- The byte in VF is the carry as a number. -/
theorem flagByte_carryOut_toNat (a b : Byte) :
    (flagByte (carryOut a b)).toNat = if a.toNat + b.toNat > 255 then 1 else 0 := by
  cases hc : carryOut a b with
  | true => exact (if_pos ((carryOut_iff a b).mp hc)).symm
  | false => exact (if_neg (mt (carryOut_iff a b).mpr (by simp [hc]))).symm

/-! ### The obligations -/

/-- Settles O15: the execute step is the write of the sum to the destination, VF too when it is the destination. -/
theorem addImmAddsModulo256WithoutCarry : Obligations.AddImmAddsModulo256WithoutCarry := by
  refine ⟨decodeWord_eq_addImm_iff, fun x kk s => ?_⟩
  obtain ⟨t, hexec, hok, hx, hpc, hframe⟩ := exec_of_perform_writeReg (perform_addImm s x kk)
  exact ⟨t, hexec, hok, by rw [hx, sumByte_toNat], hpc, hframe⟩

/-- Settles O18: the flag is written after the sum, so it stands in VF for every `x` and hides the sum for `x = 15`
alone. -/
theorem addRegWritesSumThenCarry : Obligations.AddRegWritesSumThenCarry := by
  refine ⟨decodeWord_eq_addReg_iff, fun x y s => ?_⟩
  obtain ⟨hexec, hok⟩ := exec_of_perform (perform_addReg s x y)
  refine ⟨_, hexec, hok, fun hx => ?_, ?_, rfl, ?_⟩
  · rw [State.readReg_writeFlag, if_neg hx, State.readReg_writeReg_same, sumByte_toNat]
  · rw [State.readReg_writeFlag, if_pos rfl, flagByte_carryOut_toNat]
  · exact perform_writesOnlyRegs (i := .addReg x y) s nofun nofun nofun

/-- Settles O19: the execute step gives back the state it was given, and the policy chooses the result. -/
theorem unmatchedOpcodeChangesNothing : Obligations.UnmatchedOpcodeChangesNothing :=
  ⟨decodeWord_eq_unmatched_iff_eq, fun op s h => exec_of_perform (perform_unmatched_fault s op h),
    fun op s h => exec_of_perform (perform_unmatched_noop s op h)⟩

end Sys2Proof.Machine

/-! ## Reset, and what no tick changes (70_reset_and_hazards.md) -/

namespace Sys2Proof.Machine

open Sys2Proof.Laws Sys2Proof.Machine.Claims

/-! ### What no number of ticks changes (R46, R78, R176) -/

theorem sameUntouched_refl (s : State) : SameUntouched s s := ⟨rfl, rfl, rfl, fun _ => rfl, rfl⟩

theorem sameUntouched_trans {s t u : State} : SameUntouched s t → SameUntouched t u → SameUntouched s u :=
  fun ⟨hi, hdt, hst, hmem, hpolicy⟩ ⟨hi', hdt', hst', hmem', hpolicy'⟩ =>
    ⟨hi'.trans hi, hdt'.trans hdt, hst'.trans hst, fun a => (hmem' a).trans (hmem a), hpolicy'.trans hpolicy⟩

/-- A failed fetch leaves everything, and after a successful one the PC advance is all that precedes the execute
step. -/
theorem tick_sameUntouched (s : State) : SameUntouched s (tick s).state := by
  rcases tick_cases s with ⟨-, -, ht⟩ | ⟨-, op, -, ht⟩
  · rw [ht]
    exact sameUntouched_refl s
  · rw [ht]
    exact perform_sameUntouched (decodeWord op) s.advance

theorem ticks_sameUntouched (n : Nat) (s : State) : SameUntouched s (ticks n s).1 := by
  induction n generalizing s with
  | zero => exact sameUntouched_refl s
  | succ n ih => exact sameUntouched_trans (tick_sameUntouched s) (ih (tick s).state)

theorem ticks_replies_length (n : Nat) (s : State) : (ticks n s).2.length = n :=
  (hostRun_replies_length _ s).trans List.length_replicate

/-! ### The reset state read (R10, R171) -/

/-- Nothing is written at reset, and the font ends at 0x04F (D3, log entry 4). -/
theorem State.reset_read_above_font {a : Nat} (h : 0x050 ≤ a) : State.reset.mem.read a = 0x00 :=
  if_neg (Nat.not_lt.mpr h)

theorem State.reset_readReg (r : Reg) : State.reset.readReg r = 0x00 := Vector.getElem_replicate r.isLt

/-- The display at reset is a cleared one (D4, log entry 5). -/
theorem State.reset_getPixel {x y : Nat} (hx : x < 64) (hy : y < 32) : State.reset.fb.getPixel x y = .ok false :=
  Display.getPixel_clear State.reset.fb hx hy

/-! ### A RET with an empty stack (R90) -/

/-- The RET fails, and the PC advance is all that the tick leaves. -/
theorem tick_ret_empty {s : State} (hfetch : fetch s = .ok 0x00EE) (hsp : s.sp.val = 0) :
    tick s = ⟨s.advance, .error .stackUnderflow⟩ := by
  rw [tick_of_fetch_ok hfetch, (decodeWord_eq_ret_iff _).mpr rfl, perform_ret_empty s.advance hsp]

/-! ### The obligations of 70_reset_and_hazards.md -/

/-- Settles O33, by induction on the number of ticks. -/
theorem memoryIsConstantOverTicks : Obligations.MemoryIsConstantOverTicks :=
  fun n s => ⟨ticks_sameUntouched n s, ticks_replies_length n s⟩

/-- Settles O37: the word placed at 0x200 is the one fetched, and the RET it decodes to finds SP = 0. -/
theorem resetStartsAt200WithAnEmptyStack : Obligations.ResetStartsAt200WithAnEmptyStack := by
  have hfetch : fetch (State.reset.withFetchWord 16 0x00EE) = .ok 0x00EE := fetch_placeWord State.reset_mem_wf 0x00EE
  obtain ⟨hstep, hresult⟩ := step_of_tick (tick_ret_empty hfetch rfl)
  exact ⟨rfl, rfl, rfl, _, hstep, hresult, rfl, rfl⟩

/-- Settles O38: the registers, the memory above the font and the pixels by their reads, the rest by the fields. -/
theorem resetValuesOfTheRest : Obligations.ResetValuesOfTheRest :=
  ⟨State.reset_readReg, rfl, rfl, rfl, fun _ hk => Vector.getElem_replicate hk,
    fun _ ha => State.reset_read_above_font ha, fun _ _ hx hy => State.reset_getPixel hx hy, rfl⟩

/-- Settles O50: the move is the reset state with the policy carried over, so carrying over the reset policy is no
change. -/
theorem hostResetGivesTheResetState : Obligations.HostResetGivesTheResetState :=
  fun _ => ⟨rfl, fun h => congrArg State.reset.withPolicy h⟩

end Sys2Proof.Machine
